-- ==== Sys2Proof/Word.lean ====
section
/-! DEFINITION. The word types of the glyph unit: plain names for the widths the spec fixes. -/

namespace Sys2Proof

/-- A row byte: bit `j` is the pixel of column `j` (10_state.md R10, R11). -/
abbrev Byte := BitVec 8

/-- A glyph in the packing of 10_state.md R12: row byte `i` at bits `8i+7 : 8i`. -/
abbrev Glyph := BitVec 64

/-- A command word `CMD` (30_encoding.md R45). -/
abbrev CmdWord := BitVec 32

/-- The operand port `DIN` (30_encoding.md R45). -/
abbrev Operand := BitVec 64

/-- A quadrant code of one preview cell (43_preview.md R91). -/
abbrev Nibble := BitVec 4

/-- A result code, the field `ST.ERR` (10_state.md R21). -/
abbrev ErrCode := BitVec 4

/-- A code point on the port `PVCH` (43_preview.md R94). -/
abbrev CodePoint := BitVec 16

end Sys2Proof
end

