-- ==== Sys2Proof/Config.lean ====
section
/-! DEFINITION. The constants of 00_scope.md R4. The unit has no free value: the spec leaves no
result of a command open (93_implementation_defined.md section 2), so no opaque constant stands
here. The open width `CHW` (R6) needs none: a channel is a natural number. -/

namespace Sys2Proof.Config

/-- Glyphs in the store, `NGLYPH` (00_scope.md R4). -/
@[simp] abbrev nGlyph : Nat := 256

/-- Rows of a glyph, `NROW` (00_scope.md R4). -/
@[simp] abbrev nRow : Nat := 8

/-- Columns of a row, `NCOL` (00_scope.md R4). -/
@[simp] abbrev nCol : Nat := 8

/-- Bytes of the store's layout, `NBYTES` (00_scope.md R4). -/
@[simp] abbrev nBytes : Nat := 2048

/-- Required image width, `IMG_W` (00_scope.md R4). -/
@[simp] abbrev imgW : Nat := 256

/-- Required image height, `IMG_H` (00_scope.md R4). -/
@[simp] abbrev imgH : Nat := 64

/-- Cells in one row of cells of the image, `CELL_COLS` (00_scope.md R4). -/
@[simp] abbrev cellCols : Nat := 32

/-- Rows of cells of the image, `CELL_ROWS` (00_scope.md R4). -/
@[simp] abbrev cellRows : Nat := 8

/-- Lines of the preview, `PV_LINES` (00_scope.md R4). -/
@[simp] abbrev pvLines : Nat := 4

/-- Characters in one line of the preview, `PV_CHARS` (00_scope.md R4). -/
@[simp] abbrev pvChars : Nat := 4

end Sys2Proof.Config
end

