-- ==== Sys2Proof/Syntax.lean ====
section
/-! DEFINITION. The nine commands of 30_encoding.md R48, one constructor per row of the opcode
table, with the operands of R47 and R51 as the decoder delivers them (R52). -/

namespace Sys2Proof

/-- The three legal values of the descriptor field `SRC` (30_encoding.md R51). -/
inductive ImageStatus where
  /-- `SRC = 0`: an image was opened and decoded. -/
  | decoded
  /-- `SRC = 1`: the file does not exist. -/
  | notFound
  /-- `SRC = 2`: the file cannot be opened or is not a valid image. -/
  | undecodable
deriving DecidableEq, Repr

/-- A command of the unit. An index is the integer `signed16(IDX)` of R47. -/
inductive Instr where
  /-- RDAT: read a glyph from the store (41_container.md R71). -/
  | rdat (idx : Int)
  /-- STAT: store the working glyph (41_container.md R72). -/
  | stat (idx : Int)
  /-- LDG: load the glyph on `DIN` (41_container.md R73). -/
  | ldg (v : Glyph)
  /-- INV: invert the glyph (40_transforms.md R61). -/
  | inv
  /-- REV: reverse the bits of every row (40_transforms.md R62). -/
  | rev
  /-- TGL: toggle one pixel (40_transforms.md R63). -/
  | tgl (row col : Fin 8)
  /-- GRID: expand the glyph into booleans (43_preview.md R90). -/
  | grid
  /-- PRV: render the preview (43_preview.md R93). -/
  | prv
  /-- IMPORT: replace the font by the image's glyphs (44_import.md R106). -/
  | importFont (src : ImageStatus) (w h : BitVec 16)
deriving DecidableEq, Repr

end Sys2Proof
end

