-- ==== Sys2Proof/WellFormed.lean ====
section
/-! DEFINITION. Which commands a command word can carry: an index fits the signed 16-bit field
`IDX` (30_encoding.md R47). Every other operand's type already is its field's range. -/

namespace Sys2Proof

/-- The integers of a 16-bit two's complement field (30_encoding.md R47, R54). -/
def indexEncodable (idx : Int) : Bool :=
  decide (-32768 ≤ idx ∧ idx ≤ 32767)

/-- A command that some pair (`CMD`, `DIN`) encodes (30_encoding.md R47, R52). -/
def Instr.wf : Instr → Bool
  | .rdat idx => indexEncodable idx
  | .stat idx => indexEncodable idx
  | .ldg _ => true
  | .inv => true
  | .rev => true
  | .tgl _ _ => true
  | .grid => true
  | .prv => true
  | .importFont _ _ _ => true

end Sys2Proof
end

