-- ==== Sys2Proof/Decode.lean ====
section
/-! DEFINITION. The decoder of 30_encoding.md R52, total on every (`CMD`, `DIN`) and rejecting by
name, the encoder of R54, and the opcode map of R48 as a table. -/

namespace Sys2Proof

/-- Why a word is no command (30_encoding.md R49, R50, R51). -/
inductive Illegal where
  /-- The field `Z`, `CMD[27:22]`, is not zero. -/
  | zNotZero
  /-- `OP` is 0x0 or 0xA to 0xF. -/
  | reservedOpcode
  /-- A field the command does not use is not zero. -/
  | unusedNotZero
  /-- An IMPORT whose descriptor has `SRC = 3`. -/
  | reservedSource
deriving DecidableEq, Repr

/-- `CMD[31:28]` (30_encoding.md R46). -/
def fieldOp (cmd : CmdWord) : BitVec 4 := cmd.extractLsb' 28 4

/-- `CMD[27:22]` (30_encoding.md R46). -/
def fieldZ (cmd : CmdWord) : BitVec 6 := cmd.extractLsb' 22 6

/-- `CMD[21:19]` (30_encoding.md R46). -/
def fieldRow (cmd : CmdWord) : BitVec 3 := cmd.extractLsb' 19 3

/-- `CMD[18:16]` (30_encoding.md R46). -/
def fieldCol (cmd : CmdWord) : BitVec 3 := cmd.extractLsb' 16 3

/-- `CMD[15:0]` (30_encoding.md R46). -/
def fieldIdx (cmd : CmdWord) : BitVec 16 := cmd.extractLsb' 0 16

/-- `DIN[1:0]` of an IMPORT (30_encoding.md R51). -/
def fieldSrc (din : Operand) : BitVec 2 := din.extractLsb' 0 2

/-- `DIN[31:16]` of an IMPORT (30_encoding.md R51). -/
def fieldW (din : Operand) : BitVec 16 := din.extractLsb' 16 16

/-- `DIN[47:32]` of an IMPORT (30_encoding.md R51). -/
def fieldH (din : Operand) : BitVec 16 := din.extractLsb' 32 16

/-- `signed16` of 00_scope.md section 6, as 30_encoding.md R47 applies it to `IDX`. -/
def signed16 (v : BitVec 16) : Int := v.toInt

/-- The legal values of `SRC`; 3 is reserved (30_encoding.md R51). -/
def sourceOf (src : BitVec 2) : Option ImageStatus :=
  if src = 0#2 then some .decoded
  else if src = 1#2 then some .notFound
  else if src = 2#2 then some .undecodable
  else none

/-- `i`, where the fields the command does not use are zero (30_encoding.md R49). -/
def whenUnusedZero (unusedZero : Bool) (i : Instr) : Except Illegal Instr :=
  if unusedZero then .ok i else .error .unusedNotZero

/-- The commands that use neither `IDX`, `ROW` nor `COL`: `CMD[21:0] = 0` (30_encoding.md R52). -/
def noFields (cmd : CmdWord) : Bool :=
  fieldRow cmd == 0#3 && fieldCol cmd == 0#3 && fieldIdx cmd == 0#16

/-- The commands that use `IDX` alone: `CMD[21:16] = 0` (30_encoding.md R52). -/
def noRowCol (cmd : CmdWord) : Bool :=
  fieldRow cmd == 0#3 && fieldCol cmd == 0#3

/-- The decoding procedure of 30_encoding.md R52, once `Z` is known to be zero. -/
def decodeOp (cmd : CmdWord) (din : Operand) : Except Illegal Instr :=
  match fieldOp cmd with
  | 0x1#4 => whenUnusedZero (noRowCol cmd) (.rdat (signed16 (fieldIdx cmd)))
  | 0x2#4 => whenUnusedZero (noRowCol cmd) (.stat (signed16 (fieldIdx cmd)))
  | 0x3#4 => whenUnusedZero (noFields cmd) (.ldg din)
  | 0x4#4 => whenUnusedZero (noFields cmd) .inv
  | 0x5#4 => whenUnusedZero (noFields cmd) .rev
  | 0x6#4 => whenUnusedZero (fieldIdx cmd == 0#16) (.tgl (fieldRow cmd).toFin (fieldCol cmd).toFin)
  | 0x7#4 => whenUnusedZero (noFields cmd) .grid
  | 0x8#4 => whenUnusedZero (noFields cmd) .prv
  | 0x9#4 =>
    if noFields cmd then
      match sourceOf (fieldSrc din) with
      | some src => .ok (.importFont src (fieldW din) (fieldH din))
      | none => .error .reservedSource
    else .error .unusedNotZero
  | _ => .error .reservedOpcode

/-- Decoding is a total function of (`CMD`, `DIN`) and reads no state (30_encoding.md R52). -/
def decode (cmd : CmdWord) (din : Operand) : Except Illegal Instr :=
  if fieldZ cmd = 0#6 then decodeOp cmd din else .error .zNotZero

/-- The word of format C with these fields and `Z` zero (30_encoding.md R46). -/
def formatC (op : BitVec 4) (row col : BitVec 3) (idx : BitVec 16) : CmdWord :=
  op ++ 0#6 ++ row ++ col ++ idx

/-- The value of the descriptor field `SRC` (30_encoding.md R51). -/
def sourceBits : ImageStatus → BitVec 2
  | .decoded => 0#2
  | .notFound => 1#2
  | .undecodable => 2#2

/-- The descriptor with its ignored bits zero: `src OR w<<16 OR h<<32` (30_encoding.md R54). -/
def descriptor (src : ImageStatus) (w h : BitVec 16) : Operand :=
  0#16 ++ h ++ w ++ 0#14 ++ sourceBits src

/-- The pair (`CMD`, `DIN`) of a well-formed command, `DIN = 0` where it is not read
(30_encoding.md R54). -/
def encode : Instr → CmdWord × Operand
  | .rdat idx => (formatC 0x1#4 0#3 0#3 (BitVec.ofInt 16 idx), 0#64)
  | .stat idx => (formatC 0x2#4 0#3 0#3 (BitVec.ofInt 16 idx), 0#64)
  | .ldg v => (formatC 0x3#4 0#3 0#3 0#16, v)
  | .inv => (formatC 0x4#4 0#3 0#3 0#16, 0#64)
  | .rev => (formatC 0x5#4 0#3 0#3 0#16, 0#64)
  | .tgl row col => (formatC 0x6#4 (BitVec.ofFin row) (BitVec.ofFin col) 0#16, 0#64)
  | .grid => (formatC 0x7#4 0#3 0#3 0#16, 0#64)
  | .prv => (formatC 0x8#4 0#3 0#3 0#16, 0#64)
  | .importFont src w h => (formatC 0x9#4 0#3 0#3 0#16, descriptor src w h)

/-- One row of the opcode map (30_encoding.md R48): a word `w` is that command exactly when
`w AND mask = value`. -/
structure OpRow where
  mnemonic : String
  mask : CmdWord
  value : CmdWord
deriving DecidableEq, Repr

/-- A word matches a row of the opcode map (30_encoding.md R48). -/
def OpRow.hits (r : OpRow) (cmd : CmdWord) : Bool := cmd &&& r.mask == r.value

/-- The opcode map of 30_encoding.md R48, column by column. -/
def opcodeMap : List OpRow :=
  [⟨"RDAT", 0xFFFF0000#32, 0x10000000#32⟩,
   ⟨"STAT", 0xFFFF0000#32, 0x20000000#32⟩,
   ⟨"LDG", 0xFFFFFFFF#32, 0x30000000#32⟩,
   ⟨"INV", 0xFFFFFFFF#32, 0x40000000#32⟩,
   ⟨"REV", 0xFFFFFFFF#32, 0x50000000#32⟩,
   ⟨"TGL", 0xFFC0FFFF#32, 0x60000000#32⟩,
   ⟨"GRID", 0xFFFFFFFF#32, 0x70000000#32⟩,
   ⟨"PRV", 0xFFFFFFFF#32, 0x80000000#32⟩,
   ⟨"IMPORT", 0xFFFFFFFF#32, 0x90000000#32⟩]

/-- The mnemonic of a command (30_encoding.md R48). -/
def Instr.mnemonic : Instr → String
  | .rdat _ => "RDAT"
  | .stat _ => "STAT"
  | .ldg _ => "LDG"
  | .inv => "INV"
  | .rev => "REV"
  | .tgl _ _ => "TGL"
  | .grid => "GRID"
  | .prv => "PRV"
  | .importFont _ _ _ => "IMPORT"

/-- The command word among the low bits of an instruction given as one number: bits 31 to 0. -/
def tableCmd (nbits w : Nat) : CmdWord := BitVec.ofNat 32 (w % 2 ^ nbits)

/-- The operand above the command word: bits 95 to 32, zero where the table gives none. -/
def tableDin (nbits w : Nat) : Operand := BitVec.ofNat 64 ((w % 2 ^ nbits) / 2 ^ 32)

/-- What the decoder reads from an instruction whose `nbits` bits are `w`. -/
def decodeTableWord (nbits w : Nat) : Option Instr :=
  match decode (tableCmd nbits w) (tableDin nbits w) with
  | .ok i => some i
  | .error _ => none

end Sys2Proof
end

