-- ==== Sys2Proof/Machine/State.lean ====
section
/-! DEFINITION. The state of the glyph unit (10_state.md section 1), the image source and the
host's next actions as plain data beside it, and the state after reset (10_state.md R24). -/

namespace Sys2Proof.Machine

/-- Why the machine stops with a fault: never. No constructor stands here because the spec gives
the unit no behaviour that halts or sticks it (60_exceptions.md R131; 93_implementation_defined.md
section 2), so nobody raises a fault; safe, since every step answers a next state. -/
inductive Fault where
deriving DecidableEq, Repr

/-- Why an instruction has no meaning. -/
inductive Refusal where
  /-- Raised by an arm of `exec` for an instruction without a meaning yet; no arm raises it now.
  Safe: it claims nothing. -/
  | notModelled (mnemonic : String)
deriving DecidableEq, Repr

/-- The store in its 2048-byte layout: byte `8*i + r` is row `r` of glyph `i` (20_memory.md R32).
An address that is not listed reads as 0, its value at reset (10_state.md R24). -/
abbrev Memory := List Host.Cell

/-- The raw channel values of one pixel (20_memory.md R35). A channel is a natural number: no rule
depends on `CHW` (00_scope.md R6). -/
structure Pixel where
  r : Nat
  g : Nat
  b : Nat
deriving DecidableEq, Repr

/-- What the image source answers (20_memory.md R35, R36), held sparsely: the pixel at column `x`,
line `y` has the key `256*y + x`; a pixel that is not listed has the background colour. -/
structure Image where
  background : Pixel
  pixels : List (Nat × Pixel)
deriving DecidableEq, Repr

/-- What the host does next on the unit's inputs (10_state.md R22, 70_reset_and_hazards.md R150). -/
inductive HostEvent where
  /-- Issue a command: the word on `CMD`, the operand on `DIN` (30_encoding.md R45). -/
  | issue (cmd : CmdWord) (din : Operand)
  /-- Let the image source answer from this image; between commands only
  (70_reset_and_hazards.md R146). -/
  | present (img : Image)
  /-- Assert and release `RESET` with no command in progress (70_reset_and_hazards.md R140). -/
  | reset
  /-- Issue a command and assert `RESET` before it completes (70_reset_and_hazards.md R140). -/
  | abandon (cmd : CmdWord) (din : Operand)
deriving DecidableEq, Repr

/-- The unit's five elements of state (10_state.md section 1), and the two other agents as data. -/
structure State where
  /-- `RS`, the glyph store (10_state.md R13), in its byte layout. -/
  rs : Memory
  /-- `GR`, the working glyph (10_state.md R16). -/
  gr : Glyph
  /-- `BG`, the last bit grid rendered (10_state.md R17). -/
  bg : BitVec 64
  /-- `PV`, the last preview rendered, sixteen codes of 4 bits (10_state.md R17). -/
  pv : BitVec 64
  /-- `ST.ERR`, the result code of the last completed command (10_state.md R21). -/
  err : ErrCode
  /-- The image source's pixels (00_scope.md R7): the host's, not the unit's. -/
  image : Image
  /-- What the host does next (00_scope.md R7): the host's, not the unit's. -/
  host : List HostEvent
deriving DecidableEq, Repr

/-- The image source before the host has presented an image: every channel zero.
DESIGN CHOICE (log entry 4): the spec gives the image source no reset value. -/
def Image.initial : Image := ⟨⟨0, 0, 0⟩, []⟩

/-- After reset every element of the unit's state is zero (10_state.md R24,
70_reset_and_hazards.md R140); the host has presented nothing yet (R141). -/
def State.reset : State :=
  { rs := [], gr := 0#64, bg := 0#64, pv := 0#64, err := 0#4, image := Image.initial, host := [] }

end Sys2Proof.Machine
end

