-- ==== Sys2Proof/Machine/Flags.lean ====
section
/-! DEFINITION. The unit has no flags (10_state.md R19); its only status is the result code
`ST.ERR`. The error kinds and their codes (60_exceptions.md R120). -/

namespace Sys2Proof.Machine

/-- The error kinds of 60_exceptions.md R120, in the order of their codes. -/
inductive ErrKind where
  /-- RDAT or STAT with an index outside 0 to 255 (R122). -/
  | indexError
  /-- A buffer to decode is not 2048 bytes: host procedures only (R127). -/
  | bytesLengthError
  /-- A path exists and cannot be read: host procedures only (R127). -/
  | fileReadError
  /-- IMPORT with `SRC = 1` (R123). -/
  | notFoundError
  /-- IMPORT with `SRC = 2` (R124). -/
  | decodeError
  /-- IMPORT of a decoded image that is not 256 by 64 (R125). -/
  | imageSizeError
  /-- A word that is no command (R126). -/
  | illegalCommand
deriving DecidableEq, Repr

/-- The code of an error kind (60_exceptions.md R120). -/
def ErrKind.code : ErrKind → ErrCode
  | .indexError => 1#4
  | .bytesLengthError => 2#4
  | .fileReadError => 3#4
  | .notFoundError => 4#4
  | .decodeError => 5#4
  | .imageSizeError => 6#4
  | .illegalCommand => 7#4

/-- The code of success (60_exceptions.md R120). -/
def successCode : ErrCode := 0#4

/-- The kinds the unit itself raises; 2 and 3 are the host's (60_exceptions.md R127). -/
def ErrKind.ofUnit : ErrKind → Bool
  | .bytesLengthError => false
  | .fileReadError => false
  | _ => true

/-- The values `ST.ERR` takes: 0, 1, 4, 5, 6, 7 (10_state.md R21). -/
def legalErr (c : ErrCode) : Bool :=
  c == 0#4 || c == 1#4 || c == 4#4 || c == 5#4 || c == 6#4 || c == 7#4

end Sys2Proof.Machine
end

