-- ==== Sys2Proof/Machine/Operands.lean ====
section
/-! DEFINITION. The operand forms: rows and pixels of a glyph (00_scope.md section 6), nibbles of
`PV`, the direct index of RDAT and STAT, and the pixel test of IMPORT. -/

namespace Sys2Proof.Machine

/-- The `n`-bit value whose bit `k` is `f k`. -/
def ofBits : (n : Nat) → (Nat → Bool) → BitVec n
  | 0, _ => 0#0
  | n + 1, f => BitVec.cons (f n) (ofBits n f)

/-- `row(g, i)` is `g[8i+7 : 8i]` (00_scope.md section 6, 10_state.md R12). -/
def row (g : Glyph) (i : Nat) : Byte := g.extractLsb' (8 * i) 8

/-- `px(g, i, j)` is `row(g, i)[j]` (00_scope.md section 6, 10_state.md R11). -/
def px (g : Glyph) (i j : Nat) : Bool := (row g i).getLsbD j

/-- `glyph(b0, ..., b7)`, row byte `i` being `f i` (00_scope.md section 6). -/
def ofRows (f : Nat → Byte) : Glyph :=
  f 7 ++ f 6 ++ f 5 ++ f 4 ++ f 3 ++ f 2 ++ f 1 ++ f 0

/-- The row byte whose bit `j` is `f j` (10_state.md R11). -/
def ofColumns (f : Nat → Bool) : Byte := ofBits 8 f

/-- The glyph whose pixel in row `i`, column `j` is `f i j` (10_state.md R10, R12). -/
def ofPixels (f : Nat → Nat → Bool) : Glyph := ofRows fun i => ofColumns (f i)

/-- The code `PV[4n+3 : 4n]` of cell number `n = 4cy + cx` (10_state.md R17). -/
def nibble (v : BitVec 64) (n : Nat) : Nibble := v.extractLsb' (4 * n) 4

/-- The 64-bit value whose code number `n` is `f n` (10_state.md R17). -/
def ofNibbles (f : Nat → Nibble) : BitVec 64 := ofBits 64 fun k => (f (k / 4)).getLsbD (k % 4)

/-- An index is valid exactly when `0 <= idx <= 255` (41_container.md R70). -/
def validIndex (idx : Int) : Bool := decide (0 ≤ idx ∧ idx < Config.nGlyph)

/-- The effective glyph index is `idx` itself (41_container.md R70). -/
def glyphIndex (idx : Int) : Nat := idx.toNat

/-- The byte address of row `r` of glyph `i` in the store's layout (20_memory.md R32). -/
def rowAddress (i r : Nat) : Nat := Config.nRow * i + r

/-- Where the image source keeps the pixel at column `x`, line `y` (20_memory.md R35). -/
def pixelKey (x y : Nat) : Nat := Config.imgW * y + x

/-- The entry of a sparse list of pixels, if it is listed. -/
def findPixel : List (Nat × Pixel) → Nat → Option Pixel
  | [], _ => none
  | (a, p) :: rest, k => if a = k then some p else findPixel rest k

/-- `PixRead(x, y)`: no side effect, the same answer every time (20_memory.md R36). -/
def pixRead (img : Image) (x y : Nat) : Pixel :=
  (findPixel img.pixels (pixelKey x y)).getD img.background

/-- `black(R, G, B)`: all three raw channel values are exactly zero (44_import.md R105). -/
def black (p : Pixel) : Bool := p.r == 0 && p.g == 0 && p.b == 0

end Sys2Proof.Machine
end

