-- ==== Sys2Proof/Machine/Memory.lean ====
section
/-! DEFINITION. The glyph store as the spec's byte layout (20_memory.md R32): reading and writing
one byte and one glyph, replacing the whole store, and the host notation `MemRead`, `MemWrite`
(R33). Every operation keeps the canonical form `Memory.wf`. -/

namespace Sys2Proof.Machine

/-- What an address that is not listed reads as: the store is zero at reset (10_state.md R24). -/
def unlistedByte : Byte := 0#8

/-- The canonical form: addresses strictly rising and below 2048, no entry equal to what an
unlisted address reads as. -/
abbrev Memory.wf (m : Memory) : Prop :=
  m.Pairwise (fun p q => p.1 < q.1) ∧ ∀ p ∈ m, p.1 < Config.nBytes ∧ p.2 ≠ unlistedByte

/-- One byte of the layout. -/
def readByte : Memory → Nat → Byte
  | [], _ => unlistedByte
  | (a, b) :: m, k => if a = k then b else readByte m k

/-- The cells of every other address. -/
def forget (m : Memory) (k : Nat) : Memory := m.filter fun c => c.1 != k

/-- A cell put before the first cell of a higher address. -/
def insertCell : Memory → Nat → Byte → Memory
  | [], k, v => [(k, v)]
  | (a, b) :: m, k, v => if k < a then (k, v) :: (a, b) :: m else (a, b) :: insertCell m k v

/-- Write one byte of the layout. Writing what an unlisted address reads as removes the entry. -/
def writeByte (m : Memory) (k : Nat) (v : Byte) : Memory :=
  if v = unlistedByte then forget m k else insertCell (forget m k) k v

/-- `RS[i]`: the eight row bytes at `8i .. 8i+7`, row 0 lowest (20_memory.md R32, R34). -/
def readGlyph (m : Memory) (i : Nat) : Glyph := ofRows fun r => readByte m (rowAddress i r)

/-- `RS[i] <- g`: the whole glyph is replaced (41_container.md R72). -/
def writeGlyph (m : Memory) (i : Nat) (g : Glyph) : Memory :=
  (List.range Config.nRow).foldl (fun m r => writeByte m (rowAddress i r) (row g r)) m

/-- The store whose byte at address `a` below 2048 is `f a`. -/
def ofBytes (f : Nat → Byte) : Memory :=
  ((List.range Config.nBytes).filter fun a => f a != unlistedByte).map fun a => (a, f a)

/-- The store whose glyph `n` has row `r` equal to `f n r`: all 256 entries at once
(44_import.md R106). -/
def ofGlyphRows (f : Nat → Nat → Byte) : Memory :=
  ofBytes fun a => f (a / Config.nRow) (a % Config.nRow)

/-- `MemRead(a, n)`, lowest address first; not defined outside 0 .. 2047 (20_memory.md R33). -/
def memRead (m : Memory) (a n : Nat) : Option (List Byte) :=
  if a + n ≤ Config.nBytes then some ((List.range n).map fun k => readByte m (a + k)) else none

/-- Bytes read as one number, the lowest address least significant (20_memory.md R34). -/
def littleEndian : List Byte → Nat
  | [] => 0
  | b :: bs => b.toNat + 256 * littleEndian bs

/-- The bytes of `v` written from address `a` upwards. -/
def writeBytes : Memory → Nat → List Byte → Memory
  | m, _, [] => m
  | m, a, b :: v => writeBytes (writeByte m a b) (a + 1) v

/-- `MemWrite(a, n, v)` with `n` the length of `v`; not defined outside 0 .. 2047
(20_memory.md R33). -/
def memWrite (m : Memory) (a : Nat) (v : List Byte) : Option Memory :=
  if a + v.length ≤ Config.nBytes then some (writeBytes m a v) else none

end Sys2Proof.Machine
end

