-- ==== Sys2Proof/Machine/Ops.lean ====
section
/-! DEFINITION. The named operations over the registers: one write per field, the completion of a
command with success, and with an error. The last is the unit's only exception: there is no trap
entry and no return (60_exceptions.md R121, R130, R131). -/

namespace Sys2Proof.Machine

/-- `RS` as a whole is replaced. -/
def State.setRs (s : State) (m : Memory) : State := { s with rs := m }

/-- `GR <- g`. -/
def State.setGr (s : State) (g : Glyph) : State := { s with gr := g }

/-- `BG <- v`. -/
def State.setBg (s : State) (v : BitVec 64) : State := { s with bg := v }

/-- `PV <- v`. -/
def State.setPv (s : State) (v : BitVec 64) : State := { s with pv := v }

/-- `ST.ERR <- c`. -/
def State.setErr (s : State) (c : ErrCode) : State := { s with err := c }

/-- The image source answers from another image. -/
def State.setImage (s : State) (img : Image) : State := { s with image := img }

/-- The host's next actions. -/
def State.setHost (s : State) (h : List HostEvent) : State := { s with host := h }

/-- `done`: complete the command with `ST.ERR <- 0` (00_scope.md section 6). -/
def done (s : State) : State := s.setErr successCode

/-- `raise <Kind>`: complete the command with `ST.ERR <- code(<Kind>)`; `RS`, `GR`, `BG`, `PV` keep
their values, nothing is saved, control goes nowhere (60_exceptions.md R121, R130). -/
def raise (k : ErrKind) (s : State) : State := s.setErr k.code

/-- `RESET`: every element of the unit's state takes its reset value (70_reset_and_hazards.md R140).
The image source and the host are other agents and are not reset (00_scope.md R7). -/
def resetUnit (s : State) : State :=
  { State.reset with image := s.image, host := s.host }

end Sys2Proof.Machine
end

