-- ==== Sys2Proof/Machine/Container.lean ====
section
/-! DEFINITION. RDAT, STAT, LDG (41_container.md). -/

namespace Sys2Proof.Machine

/-- RDAT: `GR <- RS[idx]`, or `IndexError` (41_container.md R71). -/
def execRdat (idx : Int) (s : State) : Host.Outcome State Fault Refusal :=
  if validIndex idx then .next (done (s.setGr (readGlyph s.rs (glyphIndex idx))))
  else .next (raise .indexError s)

/-- STAT: `RS[idx] <- GR`, or `IndexError` (41_container.md R72). -/
def execStat (idx : Int) (s : State) : Host.Outcome State Fault Refusal :=
  if validIndex idx then .next (done (s.setRs (writeGlyph s.rs (glyphIndex idx) s.gr)))
  else .next (raise .indexError s)

/-- LDG: `GR <- DIN` (41_container.md R73). -/
def execLdg (v : Glyph) (s : State) : Host.Outcome State Fault Refusal :=
  .next (done (s.setGr v))

end Sys2Proof.Machine
end

