-- ==== Sys2Proof/Machine/Import.lean ====
section
/-! DEFINITION. IMPORT, the rasterizer (44_import.md). -/

namespace Sys2Proof.Machine

/-- The image column of column `c` of glyph `n`: `8*cc + c` with `cc = n mod 32` (44_import.md R104). -/
def pixelX (n c : Nat) : Nat := Config.nCol * (n % Config.cellCols) + c

/-- The image line of row `r` of glyph `n`: `8*cr + r` with `cr = n div 32` (44_import.md R104). -/
def pixelY (n r : Nat) : Nat := Config.nRow * (n / Config.cellCols) + r

/-- `new[n][8r + c]` (44_import.md R106). -/
def importBit (img : Image) (n r c : Nat) : Bool := black (pixRead img (pixelX n c) (pixelY n r))

/-- Row `r` of the new glyph `n` (44_import.md R106). -/
def importRow (img : Image) (n r : Nat) : Byte := ofColumns (importBit img n r)

/-- The new glyph `n` (44_import.md R106). -/
def importGlyph (img : Image) (n : Nat) : Glyph := ofRows (importRow img n)

/-- All 256 new entries together: nothing of the old store survives (44_import.md R106, R107). -/
def importStore (img : Image) : Memory := ofGlyphRows (importRow img)

/-- The decoded image is exactly 256 by 64 (44_import.md R103). -/
def rightSize (w h : BitVec 16) : Bool := w.toNat == Config.imgW && h.toNat == Config.imgH

/-- IMPORT: the checks in their order, then the replacement of the font (44_import.md R106). -/
def execImportFont (src : ImageStatus) (w h : BitVec 16) (s : State) :
    Host.Outcome State Fault Refusal :=
  match src with
  | .notFound => .next (raise .notFoundError s)
  | .undecodable => .next (raise .decodeError s)
  | .decoded =>
    if rightSize w h then .next (done (s.setRs (importStore s.image)))
    else .next (raise .imageSizeError s)

end Sys2Proof.Machine
end

