-- ==== Sys2Proof/Machine/Preview.lean ====
section
/-! DEFINITION. GRID and PRV, and the preview as characters (43_preview.md). -/

namespace Sys2Proof.Machine

/-- `grid[i][j]`: the bit test of the source (43_preview.md R90). -/
def toBitGrid (g : Glyph) (i j : Nat) : Bool := (row g i >>> j) &&& 1#8 == 1#8

/-- `BG` from a grid of booleans: `BG[8i + j]` is `grid[i][j]` (10_state.md R17, 43_preview.md R90). -/
def packGrid (grid : Nat → Nat → Bool) : BitVec 64 := ofBits 64 fun k => grid (k / 8) (k % 8)

/-- The weight `w` of a pixel that is set, 0 of one that is clear. -/
def weighted (b : Bool) (w : Nat) : Nat := if b then w else 0

/-- `code(g, cy, cx) = TL + 2 TR + 4 BL + 8 BR` (43_preview.md R91). -/
def quadrantCode (g : Glyph) (cy cx : Nat) : Nat :=
  weighted (px g (2 * cy) (2 * cx)) 1 + weighted (px g (2 * cy) (2 * cx + 1)) 2
    + weighted (px g (2 * cy + 1) (2 * cx)) 4 + weighted (px g (2 * cy + 1) (2 * cx + 1)) 8

/-- The sixteen codes of a glyph as `PV` holds them (43_preview.md R93). -/
def previewCodes (g : Glyph) : BitVec 64 :=
  ofNibbles fun n => BitVec.ofNat 4 (quadrantCode g (n / Config.pvChars) (n % Config.pvChars))

/-- One entry of the lookup table: the code point and its UTF-8 bytes (43_preview.md R92). -/
structure QuadEntry where
  codePoint : CodePoint
  utf8 : List Byte
deriving DecidableEq, Repr

/-- `QCHAR`, indexed by the quadrant code (43_preview.md R92). -/
def quadTable : List QuadEntry :=
  [⟨0x0020#16, [0x20#8]⟩,
   ⟨0x2598#16, [0xE2#8, 0x96#8, 0x98#8]⟩,
   ⟨0x259D#16, [0xE2#8, 0x96#8, 0x9D#8]⟩,
   ⟨0x2580#16, [0xE2#8, 0x96#8, 0x80#8]⟩,
   ⟨0x2596#16, [0xE2#8, 0x96#8, 0x96#8]⟩,
   ⟨0x258C#16, [0xE2#8, 0x96#8, 0x8C#8]⟩,
   ⟨0x259E#16, [0xE2#8, 0x96#8, 0x9E#8]⟩,
   ⟨0x259B#16, [0xE2#8, 0x96#8, 0x9B#8]⟩,
   ⟨0x2597#16, [0xE2#8, 0x96#8, 0x97#8]⟩,
   ⟨0x259A#16, [0xE2#8, 0x96#8, 0x9A#8]⟩,
   ⟨0x2590#16, [0xE2#8, 0x96#8, 0x90#8]⟩,
   ⟨0x259C#16, [0xE2#8, 0x96#8, 0x9C#8]⟩,
   ⟨0x2584#16, [0xE2#8, 0x96#8, 0x84#8]⟩,
   ⟨0x2599#16, [0xE2#8, 0x96#8, 0x99#8]⟩,
   ⟨0x259F#16, [0xE2#8, 0x96#8, 0x9F#8]⟩,
   ⟨0x2588#16, [0xE2#8, 0x96#8, 0x88#8]⟩]

/-- The space, the table's entry 0 (43_preview.md R92). -/
def spaceEntry : QuadEntry := ⟨0x0020#16, [0x20#8]⟩

/-- The table's entry of a code; every code has one. -/
def quadEntry (c : Nibble) : QuadEntry := quadTable.getD c.toNat spaceEntry

/-- `codepoint(QCHAR[c])` (43_preview.md R94). -/
def quadChar (c : Nibble) : CodePoint := (quadEntry c).codePoint

/-- The newline, U+000A. PRESUMED by the spec itself (43_preview.md R94, log entry 10). -/
def newline : CodePoint := 0x000A#16

/-- One line of the preview: the four characters of cell row `cy` (43_preview.md R94). -/
def previewLine (pv : BitVec 64) (cy : Nat) : List CodePoint :=
  (List.range Config.pvChars).map fun cx => quadChar (nibble pv (4 * cy + cx))

/-- `PVSTR`: four lines with a newline between lines and none after the last (43_preview.md R94). -/
def previewChars (pv : BitVec 64) : List CodePoint :=
  (List.range Config.pvLines).flatMap fun cy =>
    previewLine pv cy ++ (if cy < 3 then [newline] else [])

/-- GRID (43_preview.md R90). -/
def execGrid (s : State) : Host.Outcome State Fault Refusal :=
  .next (done (s.setBg (packGrid (toBitGrid s.gr))))

/-- PRV (43_preview.md R93). -/
def execPrv (s : State) : Host.Outcome State Fault Refusal :=
  .next (done (s.setPv (previewCodes s.gr)))

end Sys2Proof.Machine
end

