-- ==== Sys2Proof/Machine/Transforms.lean ====
section
/-! DEFINITION. INV, REV, TGL (40_transforms.md). -/

namespace Sys2Proof.Machine

/-- `Invert`: the 8-bit complement of every row byte (40_transforms.md R61). -/
def invertGlyph (g : Glyph) : Glyph := ofRows fun i => ~~~(row g i)

/-- `Reverse`: bit `j` of every row byte becomes bit `7 - j` (40_transforms.md R62). -/
def reverseGlyph (g : Glyph) : Glyph := ofPixels fun i j => px g i (7 - j)

/-- The single-bit XOR on row `r`, column `c` (40_transforms.md R63). -/
def toggleGlyph (r c : Nat) (g : Glyph) : Glyph :=
  ofRows fun i => if i = r then row g i ^^^ (0x01#8 <<< c) else row g i

/-- INV (40_transforms.md R61). -/
def execInv (s : State) : Host.Outcome State Fault Refusal :=
  .next (done (s.setGr (invertGlyph s.gr)))

/-- REV (40_transforms.md R62). -/
def execRev (s : State) : Host.Outcome State Fault Refusal :=
  .next (done (s.setGr (reverseGlyph s.gr)))

/-- TGL (40_transforms.md R63). -/
def execTgl (r c : Fin 8) (s : State) : Host.Outcome State Fault Refusal :=
  .next (done (s.setGr (toggleGlyph r.val c.val s.gr)))

end Sys2Proof.Machine
end

