-- ==== Sys2Proof/Machine/Dispatch.lean ====
section
/-! DEFINITION. The meaning of every command: one arm per row of the opcode map
(30_encoding.md R48). -/

namespace Sys2Proof.Machine

def exec (i : Instr) (s : State) : Host.Outcome State Fault Refusal :=
  match i with
  | .rdat idx => Sys2Proof.Machine.execRdat idx s
  | .stat idx => Sys2Proof.Machine.execStat idx s
  | .ldg v => Sys2Proof.Machine.execLdg v s
  | .inv => Sys2Proof.Machine.execInv s
  | .rev => Sys2Proof.Machine.execRev s
  | .tgl row col => Sys2Proof.Machine.execTgl row col s
  | .grid => Sys2Proof.Machine.execGrid s
  | .prv => Sys2Proof.Machine.execPrv s
  | .importFont src w h => Sys2Proof.Machine.execImportFont src w h s

end Sys2Proof.Machine
end

