-- ==== Sys2Proof/Machine/Issue.lean ====
section
/-! DEFINITION. What the unit does with one action of the host: a command word is decoded and run,
or completes with `IllegalCommand`; `RESET` resets the unit. -/

namespace Sys2Proof.Machine

/-- A command is issued: decode comes before every other check (60_exceptions.md R128); a word
that is no command raises `IllegalCommand` (30_encoding.md R50). -/
def issue (cmd : CmdWord) (din : Operand) (s : State) : Host.Outcome State Fault Refusal :=
  match decode cmd din with
  | .ok i => exec i s
  | .error _ => .next (raise .illegalCommand s)

/-- One action of the host on a unit that is idle. A command cut short by `RESET` is abandoned:
its writes are lost along with everything else (70_reset_and_hazards.md R140). -/
def react (e : HostEvent) (s : State) : Host.Outcome State Fault Refusal :=
  match e with
  | .issue cmd din => issue cmd din s
  | .present img => .next (s.setImage img)
  | .reset => .next (resetUnit s)
  | .abandon _ _ => .next (resetUnit s)

/-- The next action of the host is taken; with none the unit waits and nothing happens
(60_exceptions.md R129, 70_reset_and_hazards.md R141). -/
def stepHost (s : State) : Host.Outcome State Fault Refusal :=
  match s.host with
  | [] => .next s
  | e :: rest => react e (s.setHost rest)

/-- The host's next action is to issue this command. -/
def presentCommand (cmd : CmdWord) (din : Operand) (s : State) : State :=
  s.setHost (.issue cmd din :: s.host)

end Sys2Proof.Machine
end

