-- ==== Sys2Proof/Machine/Step.lean ====
section
/-! DEFINITION. One step of the machine: the unit takes the host's next action. -/

namespace Sys2Proof.Machine

/-- One step: the host's next action, run to completion (20_memory.md R40). -/
def step (s : State) : Host.Outcome State Fault Refusal := stepHost s

/-- `s` with the host's next action issuing the instruction whose `nbits` bits are `w`: the command
word below, the operand `DIN` above it (30_encoding.md R45; log entry 1). -/
def State.withFetchWord (s : State) (nbits w : Nat) : State :=
  presentCommand (tableCmd nbits w) (tableDin nbits w) s

end Sys2Proof.Machine
end

