-- ==== Sys2Proof/Machine/Assembler.lean ====
section
/-! DEFINITION. The assembler syntax of 30_encoding.md R54: one command per line, the mnemonic in
capitals, operands separated by commas, `;` starting a comment, numbers decimal or hexadecimal with
`0x`, an index possibly negative. What R54 leaves open of white space is log entry 13. -/

namespace Sys2Proof.Machine

/-- What one line of text stands for. -/
inductive AsmLine where
  /-- Nothing but white space and a comment. -/
  | blank
  /-- One command. -/
  | command (i : Instr)
  /-- Not a line of the syntax. -/
  | bad
deriving DecidableEq, Repr

/-- White space within a line. -/
def isBlankChar (c : Char) : Bool := c == ' ' || c == '\t'

/-- The text before the comment. -/
def dropComment : List Char → List Char
  | [] => []
  | c :: cs => if c = ';' then [] else c :: dropComment cs

/-- The text without leading white space. -/
def trimLeft : List Char → List Char
  | [] => []
  | c :: cs => if isBlankChar c then trimLeft cs else c :: cs

/-- The text without white space at either end. -/
def trimBoth (cs : List Char) : List Char := (trimLeft (trimLeft cs).reverse).reverse

/-- The text up to the first white space. -/
def firstWord : List Char → List Char
  | [] => []
  | c :: cs => if isBlankChar c then [] else c :: firstWord cs

/-- The text from the first white space on. -/
def afterWord : List Char → List Char
  | [] => []
  | c :: cs => if isBlankChar c then c :: cs else afterWord cs

/-- The parts between commas, never an empty list. -/
def splitCommas : List Char → List (List Char)
  | [] => [[]]
  | c :: cs =>
    if c = ',' then [] :: splitCommas cs
    else match splitCommas cs with
      | [] => [[c]]
      | p :: ps => (c :: p) :: ps

/-- The value of a digit in a base of at most 16. -/
def digitValue (base : Nat) (c : Char) : Option Nat :=
  let n := c.toNat
  let v := if 48 ≤ n ∧ n ≤ 57 then n - 48
    else if 65 ≤ n ∧ n ≤ 70 then n - 55
    else if 97 ≤ n ∧ n ≤ 102 then n - 87
    else base
  if v < base then some v else none

/-- Digits after the value `acc` read so far. -/
def readDigits (base : Nat) : Nat → List Char → Option Nat
  | acc, [] => some acc
  | acc, c :: cs =>
    match digitValue base c with
    | some d => readDigits base (acc * base + d) cs
    | none => none

/-- A number: at least one digit, decimal or hexadecimal with `0x` (30_encoding.md R54). -/
def readNumber : List Char → Option Nat
  | [] => none
  | ['0', 'x'] => none
  | '0' :: 'x' :: cs => readDigits 16 0 cs
  | cs => readDigits 10 0 cs

/-- A number that is below a bound. -/
def readBelow (bound : Nat) (cs : List Char) : Option Nat :=
  match readNumber (trimBoth cs) with
  | some n => if n < bound then some n else none
  | none => none

/-- A number that may have a minus sign before it (30_encoding.md R54). -/
def readSigned : List Char → Option Int
  | '-' :: ds => (readNumber ds).map fun n : Nat => -(n : Int)
  | ds => (readNumber ds).map fun n : Nat => (n : Int)

/-- An index: a number that may be negative, in -32768 .. 32767 (30_encoding.md R54). -/
def readIndex (cs : List Char) : Option Int :=
  match readSigned (trimBoth cs) with
  | some i => if indexEncodable i then some i else none
  | none => none

/-- Every part read with the same reader, or nothing. -/
def readAll {α : Type} (f : List Char → Option α) : List (List Char) → Option (List α)
  | [] => some []
  | p :: ps =>
    match f p, readAll f ps with
    | some x, some xs => some (x :: xs)
    | _, _ => none

/-- The text after a leading `glyph(` and before the final `)`. -/
def glyphArguments (cs : List Char) : Option (List Char) :=
  match cs with
  | 'g' :: 'l' :: 'y' :: 'p' :: 'h' :: '(' :: rest =>
    match rest.reverse with
    | ')' :: body => some body.reverse
    | _ => none
  | _ => none

/-- The operand of LDG: a 64-bit number or `glyph(b0, ..., b7)` (30_encoding.md R54). -/
def readGlyphOperand (cs : List Char) : Option Glyph :=
  match glyphArguments (trimBoth cs) with
  | some args =>
    match readAll (readBelow 256) (splitCommas args) with
    | some bs => if bs.length = 8 then some (ofRows fun i => BitVec.ofNat 8 (bs.getD i 0)) else none
    | none => none
  | none => (readBelow (2 ^ 64) cs).map (BitVec.ofNat 64)

/-- The command of a legal line, or `bad`. -/
def asmOf : Option Instr → AsmLine
  | some i => .command i
  | none => .bad

/-- TGL's two operands (30_encoding.md R54). -/
def readToggle (cs : List Char) : Option Instr :=
  match readAll (readBelow 8) (splitCommas cs) with
  | some [r, c] => some (.tgl (Fin.ofNat 8 r) (Fin.ofNat 8 c))
  | _ => none

/-- IMPORT's three operands: `src` in 0 to 2, `w`, `h` in 0 to 65535 (30_encoding.md R54). -/
def readImport (cs : List Char) : Option Instr :=
  match readAll (readBelow 65536) (splitCommas cs) with
  | some [src, w, h] =>
    if src < 4 then
      (sourceOf (BitVec.ofNat 2 src)).map fun st =>
        .importFont st (BitVec.ofNat 16 w) (BitVec.ofNat 16 h)
    else none
  | _ => none

/-- A command without operands. -/
def readPlain (i : Instr) (cs : List Char) : Option Instr := if cs = [] then some i else none

/-- The command of a mnemonic and the text after it (30_encoding.md R54). -/
def readCommand (word rest : List Char) : Option Instr :=
  if word = ['R', 'D', 'A', 'T'] then (readIndex rest).map .rdat
  else if word = ['S', 'T', 'A', 'T'] then (readIndex rest).map .stat
  else if word = ['L', 'D', 'G'] then (readGlyphOperand rest).map .ldg
  else if word = ['I', 'N', 'V'] then readPlain .inv rest
  else if word = ['R', 'E', 'V'] then readPlain .rev rest
  else if word = ['T', 'G', 'L'] then readToggle rest
  else if word = ['G', 'R', 'I', 'D'] then readPlain .grid rest
  else if word = ['P', 'R', 'V'] then readPlain .prv rest
  else if word = ['I', 'M', 'P', 'O', 'R', 'T'] then readImport rest
  else none

/-- One line of assembler text (30_encoding.md R54). -/
def assembleLine (line : List Char) : AsmLine :=
  match trimBoth (dropComment line) with
  | [] => .blank
  | text => asmOf (readCommand (firstWord text) (trimBoth (afterWord text)))

/-- The pair (`CMD`, `DIN`) a line encodes as (30_encoding.md R54). -/
def assembleWords (line : List Char) : Option (CmdWord × Operand) :=
  match assembleLine line with
  | .command i => some (encode i)
  | _ => none

end Sys2Proof.Machine
end

