-- ==== Sys2Proof/Machine/Ports.lean ====
section
/-! DEFINITION. The ports of 10_state.md R22. An output port that shows a register is a function of
the state, valid whenever no command is in progress, which is every state of this model
(70_reset_and_hazards.md R147). An input port is what the host's next action drives on it. -/

namespace Sys2Proof.Machine

/-- `ERR` shows `ST.ERR`. -/
def portErr (s : State) : ErrCode := s.err

/-- `GOUT` shows `GR`. -/
def portGout (s : State) : Glyph := s.gr

/-- `BGOUT` shows `BG`. -/
def portBgout (s : State) : BitVec 64 := s.bg

/-- `PVOUT` shows `PV`. -/
def portPvout (s : State) : BitVec 64 := s.pv

/-- `PVCH` is a function of `PV` alone (43_preview.md R94). -/
def portPvch (s : State) : List CodePoint := previewChars s.pv

/-- `CMD_READY` is 1 whenever no command is in progress (70_reset_and_hazards.md R141, R144). -/
def portCmdReady (_ : State) : Bool := true

/-- `PX_X`, the 8-bit column asked for during IMPORT (10_state.md R22, 44_import.md R110). -/
def portPxX (n c : Nat) : BitVec 8 := BitVec.ofNat 8 (pixelX n c)

/-- `PX_Y`, the 6-bit line asked for during IMPORT (10_state.md R22, 44_import.md R110). -/
def portPxY (n r : Nat) : BitVec 6 := BitVec.ofNat 6 (pixelY n r)

/-- `PX_R`, `PX_G`, `PX_B`: the image source's answer to the pixel address asked for. -/
def portPixel (s : State) (n r c : Nat) : Pixel :=
  pixRead s.image (portPxX n c).toNat (portPxY n r).toNat

/-- `CMD_VALID`: the host's next action presents a command. -/
def portCmdValid (s : State) : Bool :=
  match s.host with
  | .issue _ _ :: _ => true
  | .abandon _ _ :: _ => true
  | _ => false

/-- `CMD` and `DIN`, where the host's next action presents a command. -/
def portCommand (s : State) : Option (CmdWord × Operand) :=
  match s.host with
  | .issue cmd din :: _ => some (cmd, din)
  | .abandon cmd din :: _ => some (cmd, din)
  | _ => none

/-- `RESET` is asserted in the host's next action. -/
def portReset (s : State) : Bool :=
  match s.host with
  | .reset :: _ => true
  | .abandon _ _ :: _ => true
  | _ => false

/-- `DONE` pulses at the end of the step from this state: a command completes, which an abandoned
command does not (70_reset_and_hazards.md R140). -/
def portDone (s : State) : Bool :=
  match s.host with
  | .issue _ _ :: _ => true
  | _ => false

end Sys2Proof.Machine
end

