-- ==== Sys2Proof/Machine/Pseudo.lean ====
section
/-! DEFINITION. The pseudo-instructions of 30_encoding.md R55: the host issues the commands in order
and abandons the rest at the first nonzero result code. -/

namespace Sys2Proof.Machine

/-- A pseudo-instruction that stands for a fixed sequence of commands (30_encoding.md R55). -/
inductive Pseudo where
  | readat (idx : Int)
  | setat (g : Glyph) (idx : Int)
  | invert (idx : Int)
  | mirror (idx : Int)
  | toggle (idx : Int) (row col : Fin 8)
  | clear (idx : Int)
  | paste (g : Glyph) (idx : Int)
  | showGlyph (idx : Int)
  | editview (idx : Int)
deriving DecidableEq, Repr

/-- The expansion of a pseudo-instruction (30_encoding.md R55). -/
def Pseudo.expand : Pseudo → List Instr
  | .readat idx => [.rdat idx]
  | .setat g idx => [.ldg g, .stat idx]
  | .invert idx => [.rdat idx, .inv, .stat idx]
  | .mirror idx => [.rdat idx, .rev, .stat idx]
  | .toggle idx row col => [.rdat idx, .tgl row col, .stat idx]
  | .clear idx => [.ldg 0#64, .stat idx]
  | .paste g idx => [.ldg g, .stat idx]
  | .showGlyph idx => [.rdat idx, .prv]
  | .editview idx => [.rdat idx, .grid]

/-- What follows a next state; a stop stays a stop. -/
def andThen {σ τ : Type} (o : Host.Outcome σ Fault Refusal) (f : σ → Host.Outcome τ Fault Refusal) :
    Host.Outcome τ Fault Refusal :=
  match o with
  | .next s => f s
  | .fault r => .fault r
  | .refused r => .refused r

/-- Commands issued in order; the rest is abandoned at the first nonzero result code
(30_encoding.md R55). -/
def runCommands : List Instr → State → Host.Outcome State Fault Refusal
  | [], s => .next s
  | i :: rest, s =>
    andThen (exec i s) fun t =>
      if portErr t = successCode then runCommands rest t else .next t

/-- A pseudo-instruction as the host runs it (30_encoding.md R55). -/
def runPseudo (p : Pseudo) (s : State) : Host.Outcome State Fault Refusal :=
  runCommands p.expand s

/-- What the host has of a pseudo-instruction: what it reads at the end, or the code at which it
abandoned the sequence (30_encoding.md R55). -/
inductive PseudoResult where
  /-- Abandoned with this nonzero code; the closing read is abandoned too and there is no value.
  DESIGN CHOICE (log entry 14): 93_implementation_defined.md section 1 item 8 leaves the value that
  comes with a failed READAT open, and 70_reset_and_hazards.md R150 bars its use. -/
  | failed (code : ErrCode)
  | nothing
  | glyph (gout : Glyph)
  | characters (pvch : List CodePoint)
  | grid (bgout : BitVec 64)
deriving DecidableEq, Repr

/-- The port the host reads at the end of a sequence that succeeded (30_encoding.md R55). -/
def Pseudo.reading (p : Pseudo) (s : State) : PseudoResult :=
  match p with
  | .readat _ => .glyph (portGout s)
  | .showGlyph _ => .characters (portPvch s)
  | .editview _ => .grid (portBgout s)
  | .setat _ _ => .nothing
  | .invert _ => .nothing
  | .mirror _ => .nothing
  | .toggle _ _ _ => .nothing
  | .clear _ => .nothing
  | .paste _ _ => .nothing

/-- What the host has in the state where the sequence ended: the closing read where `ERR` is 0,
otherwise the code and no value (30_encoding.md R55, log entry 14). -/
def Pseudo.result (p : Pseudo) (s : State) : PseudoResult :=
  if portErr s = successCode then p.reading s else .failed (portErr s)

/-- A pseudo-instruction with what the host has of it at the end (30_encoding.md R55). -/
def callPseudo (p : Pseudo) (s : State) : Host.Outcome (State × PseudoResult) Fault Refusal :=
  andThen (runPseudo p s) fun t => .next (t, p.result t)

end Sys2Proof.Machine
end

