-- ==== Sys2Proof/Machine/Codec.lean ====
section
/-! DEFINITION. The codec (42_codec.md): the functions `Encode` and `Decode` on a store and 2048
bytes, and the host procedures ENCODE and DECODE that realise them with the unit's commands. -/

namespace Sys2Proof.Machine

/-- `BYTES(RS)`: 2048 bytes, glyph-major, row-minor (20_memory.md R32, 42_codec.md R80). -/
def storeBytes (m : Memory) : List Byte :=
  (List.range Config.nBytes).map fun a => row (readGlyph m (a / Config.nRow)) (a % Config.nRow)

/-- `Decode(bytes)`: nothing unless there are exactly 2048 (42_codec.md R82). -/
def decodeBytes (b : List Byte) : Option Memory :=
  if b.length = Config.nBytes then some (ofBytes fun a => b.getD a 0#8) else none

/-- The eight row bytes of a glyph, row 0 first (42_codec.md R81). -/
def glyphBytes (g : Glyph) : List Byte := (List.range Config.nRow).map (row g)

/-- The glyph of bytes `8i .. 8i+7` of a buffer (42_codec.md R83). -/
def glyphAt (b : List Byte) (i : Nat) : Glyph := ofRows fun r => b.getD (rowAddress i r) 0#8

/-- ENCODE over a list of indices: RDAT, then the host reads `GOUT` (42_codec.md R81). -/
def encodeFrom : List Nat → State → Host.Outcome (State × List Byte) Fault Refusal
  | [], s => .next (s, [])
  | i :: rest, s =>
    andThen (exec (.rdat i) s) fun t =>
      andThen (encodeFrom rest t) fun u => .next (u.1, glyphBytes (portGout t) ++ u.2)

/-- The host procedure ENCODE (42_codec.md R81). -/
def encodeProcedure (s : State) : Host.Outcome (State × List Byte) Fault Refusal :=
  encodeFrom (List.range Config.nGlyph) s

/-- The commands of DECODE for a list of indices: LDG, STAT (42_codec.md R83). -/
def decodeFrom (b : List Byte) : List Nat → State → Host.Outcome State Fault Refusal
  | [], s => .next s
  | i :: rest, s => andThen (runPseudo (.setat (glyphAt b i) i) s) (decodeFrom b rest)

/-- The host procedure DECODE with the code it returns: the length check comes before the first
command (42_codec.md R83). -/
def decodeProcedure (b : List Byte) (s : State) : Host.Outcome (State × ErrCode) Fault Refusal :=
  if b.length = Config.nBytes then
    andThen (decodeFrom b (List.range Config.nGlyph) s) fun t => .next (t, successCode)
  else .next (s, ErrKind.bytesLengthError.code)

end Sys2Proof.Machine
end

