-- ==== Sys2Proof/Machine/Gateway.lean ====
section
/-! DEFINITION. Host procedures around files: LOAD and SAVE (45_file_gateway.md) and IMPORTIMAGE
(44_import.md R111). The filesystem and the image decoder are seen by their outcome alone. -/

namespace Sys2Proof.Machine

/-- What the filesystem says of a path (45_file_gateway.md R113 to R116). -/
inductive FileStatus where
  /-- The path does not exist. -/
  | absent
  /-- The path exists and cannot be read. -/
  | unreadable
  /-- The file's bytes. -/
  | readable (content : List Byte)
deriving DecidableEq, Repr

/-- What LOAD tells its caller (45_file_gateway.md R113). -/
structure LoadReport where
  found : Bool
  error : ErrCode
deriving DecidableEq, Repr

/-- `LDG 0; STAT i` for the listed indices (45_file_gateway.md R113). -/
def clearFrom : List Nat → State → Host.Outcome State Fault Refusal
  | [], s => .next s
  | i :: rest, s => andThen (runPseudo (.clear i) s) (clearFrom rest)

/-- The host makes the store zero-valued: nothing to do right after reset
(45_file_gateway.md R113). -/
def makeBlank (afterReset : Bool) (s : State) : Host.Outcome State Fault Refusal :=
  if afterReset then .next s else clearFrom (List.range Config.nGlyph) s

/-- LOAD (45_file_gateway.md R113 to R116). `found` of an unreadable file is true as R114 says
(log entry 11). `afterReset` is whether the unit has run no command since reset. -/
def loadProcedure (afterReset : Bool) (f : FileStatus) (s : State) :
    Host.Outcome (State × LoadReport) Fault Refusal :=
  match f with
  | .absent => andThen (makeBlank afterReset s) fun t => .next (t, ⟨false, successCode⟩)
  | .unreadable => .next (s, ⟨true, ErrKind.fileReadError.code⟩)
  | .readable b => andThen (decodeProcedure b s) fun u => .next (u.1, ⟨true, u.2⟩)

/-- What SAVE tells its caller: the bytes stand in the file, or the write's own error, unchanged
(45_file_gateway.md R117). -/
inductive SaveReport where
  | written (content : List Byte)
  | failed (ioError : Nat)
deriving DecidableEq, Repr

/-- SAVE: ENCODE, then the host writes the 2048 bytes; `io` is the outcome of that write
(45_file_gateway.md R117). -/
def saveProcedure (io : Option Nat) (s : State) :
    Host.Outcome (State × SaveReport) Fault Refusal :=
  andThen (encodeProcedure s) fun u =>
    match io with
    | none => .next (u.1, .written u.2)
    | some e => .next (u.1, .failed e)

/-- What the image decoder says of a path (44_import.md R100, R111). -/
inductive ImageFile where
  /-- The file does not exist. -/
  | absent
  /-- It cannot be opened or decoded. -/
  | undecodable
  /-- The decoded size and pixels. -/
  | decoded (w h : Nat) (img : Image)
deriving DecidableEq, Repr

/-- A size as the descriptor carries it; one above 65535 cannot be described and is reported as
65535, which no rule accepts (44_import.md R110, log entry 12). -/
def describeSize (n : Nat) : BitVec 16 := if n ≤ 65535 then BitVec.ofNat 16 n else 0xFFFF#16

/-- The descriptor the host puts into IMPORT: `w = h = 0` when `src` is not 0 (44_import.md R111). -/
def importCommand : ImageFile → Instr
  | .absent => .importFont .notFound 0#16 0#16
  | .undecodable => .importFont .undecodable 0#16 0#16
  | .decoded w h _ => .importFont .decoded (describeSize w) (describeSize h)

/-- The image the host presents to the unit (44_import.md R111). -/
def presentFile (f : ImageFile) (s : State) : State :=
  match f with
  | .absent => s
  | .undecodable => s
  | .decoded _ _ img => s.setImage img

/-- IMPORTIMAGE with the code it returns (44_import.md R111). -/
def importImageProcedure (f : ImageFile) (s : State) :
    Host.Outcome (State × ErrCode) Fault Refusal :=
  andThen (exec (importCommand f) (presentFile f s)) fun t => .next (t, portErr t)

end Sys2Proof.Machine
end

