-- ==== Sys2Proof/Safety.lean ====
section
/-! DEFINITION. What counts as a good state and a safe run, in the terms the statements use. -/

namespace Sys2Proof.Machine

/-- The canonical form of the image source's data: keys strictly rising and inside the 256 by 64
pixels (20_memory.md R35), no entry equal to the background. -/
abbrev Image.wf (img : Image) : Prop :=
  img.pixels.Pairwise (fun p q => p.1 < q.1) ∧
    ∀ p ∈ img.pixels, p.1 < Config.imgW * Config.imgH ∧ p.2 ≠ img.background

/-- An image the host is about to present has its canonical form. -/
abbrev HostEvent.wf : HostEvent → Prop
  | .present img => img.wf
  | .issue _ _ => True
  | .reset => True
  | .abandon _ _ => True

/-- The invariant of every run: the store and the images have their canonical form, and `ST.ERR` is
one of 0, 1, 4, 5, 6, 7 (10_state.md R21, 60_exceptions.md R120). -/
structure State.Inv (s : State) : Prop where
  store : s.rs.wf
  code : legalErr s.err = true
  image : s.image.wf
  host : ∀ e ∈ s.host, e.wf

/-- The unit's five elements of state agree (10_state.md section 1). -/
structure SameUnit (s t : State) : Prop where
  rs : s.rs = t.rs
  gr : s.gr = t.gr
  bg : s.bg = t.bg
  pv : s.pv = t.pv
  err : s.err = t.err

/-- The elements a command's result can depend on: `RS`, `GR` and the image source
(10_state.md R19). -/
structure SameInputs (s t : State) : Prop where
  rs : s.rs = t.rs
  gr : s.gr = t.gr
  image : s.image = t.image

/-- The machine goes on: it stops neither with a fault nor with a refusal
(60_exceptions.md R131). -/
def goesOn (o : Host.Outcome State Fault Refusal) : Prop := ∃ t, o = .next t

/-- Two stores that no RDAT can tell apart (10_state.md R13, 41_container.md R74). -/
def sameGlyphs (m n : Memory) : Prop := ∀ i < Config.nGlyph, readGlyph m i = readGlyph n i

/-- The words 30_encoding.md R50 lists as illegal by their opcode or by `Z`. -/
def reservedWord (cmd : CmdWord) : Bool :=
  fieldOp cmd == 0x0#4 || decide (0xA#4 ≤ fieldOp cmd) || fieldZ cmd != 0#6

/-- The bits of `DIN` a command word reads: all of them for LDG, the descriptor's fields for IMPORT,
none for the others (30_encoding.md R51). -/
def sameDin (cmd : CmdWord) (d e : Operand) : Prop :=
  if fieldOp cmd = 0x3#4 then d = e
  else if fieldOp cmd = 0x9#4 then
    fieldSrc d = fieldSrc e ∧ fieldW d = fieldW e ∧ fieldH d = fieldH e
  else True

/-- The image that shows the given glyphs: pixel (`8cc + c`, `8cr + r`) pure black exactly when the
bit is set, and (9, 9, 9) otherwise (44_import.md R109). -/
def imageOf (g : Nat → Glyph) : Image :=
  { background := ⟨9, 9, 9⟩
    pixels := ((List.range (Config.imgW * Config.imgH)).filter fun k =>
        px (g (32 * (k / 256 / 8) + k % 256 / 8)) (k / 256 % 8) (k % 256 % 8)).map
      fun k => (k, ⟨0, 0, 0⟩) }

/-! ### The texts of 30_encoding.md R54, written independently of the assembler -/

/-- The value of digits in a base, the most significant first. -/
def positional (base : Nat) (ds : List Nat) : Nat := ds.foldl (fun v d => v * base + d) 0

/-- The character of a digit below 16; the digits from ten on are capital or small (log entry 13). -/
def digitChar (small : Bool) (d : Nat) : Char :=
  Char.ofNat (if d < 10 then 48 + d else if small then 87 + d else 55 + d)

/-- `t` writes the number `n`: decimal, or hexadecimal with `0x` (30_encoding.md R54). -/
def NumberText (t : List Char) (n : Nat) : Prop :=
  (∃ ds : List (Fin 10), ds ≠ [] ∧ t = ds.map (fun d => digitChar false d.val) ∧
    n = positional 10 (ds.map Fin.val)) ∨
  (∃ ds : List (Bool × Fin 16), ds ≠ [] ∧
    t = '0' :: 'x' :: ds.map (fun d => digitChar d.1 d.2.val) ∧
    n = positional 16 (ds.map fun d => d.2.val))

/-- `t` writes the index `idx`, which may be negative (30_encoding.md R54). -/
def IndexText (t : List Char) (idx : Int) : Prop :=
  (0 ≤ idx ∧ NumberText t idx.toNat) ∨
    (idx ≤ 0 ∧ ∃ u, t = '-' :: u ∧ NumberText u (-idx).toNat)

/-- Operands separated by commas, each comma followed by a space as in R54's own rows. -/
def commaText : List (List Char) → List Char
  | [] => []
  | [t] => t
  | t :: u :: ts => t ++ ',' :: ' ' :: commaText (u :: ts)

/-- The line, alone or with any comment after it, assembles to this command and to this pair
(30_encoding.md R54). -/
def Assembles (line : List Char) (i : Instr) (cmd : CmdWord) (din : Operand) : Prop :=
  assembleLine line = .command i ∧ assembleWords line = some (cmd, din) ∧
    ∀ comment, assembleLine (line ++ ';' :: comment) = .command i ∧
      assembleWords (line ++ ';' :: comment) = some (cmd, din)

end Sys2Proof.Machine
end

