-- ==== Sys2Proof/Certificates/Slice0/Obligations.lean ====
section
/-! DEFINITION. The statements for the provers. Each docstring names the rule of spec/ it
formalises. -/

open Sys2Proof Sys2Proof.Machine

/-! ### The command word -/

/-- The accepted words of 95_test_vectors.md section 2.8, and three more written out from the fields
of 30_encoding.md R46, decode to the commands they stand for. -/
def Obligations.WrittenWordsDecode : Prop :=
  decode 0x40000000#32 0#64 = .ok .inv ∧
  decode 0x50000000#32 0#64 = .ok .rev ∧
  decode 0x10000046#32 0#64 = .ok (.rdat 70) ∧
  decode 0x1000FFFF#32 0#64 = .ok (.rdat (-1)) ∧
  decode 0x20000041#32 0#64 = .ok (.stat 65) ∧
  decode 0x60130000#32 0#64 = .ok (.tgl 2 3) ∧
  decode 0x30000000#32 0xFF818181818181FF#64 = .ok (.ldg 0xFF818181818181FF#64) ∧
  decode 0x70000000#32 0#64 = .ok .grid ∧
  decode 0x80000000#32 0#64 = .ok .prv ∧
  decode 0x90000000#32 0x0000010000400000#64 = .ok (.importFont .decoded 64#16 256#16)

/-- Decoding the words of a well-formed command gives the command back (30_encoding.md R52, R54). -/
def Obligations.DecodeOfEncodeIsIdentity : Prop :=
  ∀ i : Instr, i.wf = true → decode (encode i).1 (encode i).2 = .ok i

/-- Each word is exactly one command or illegal (30_encoding.md R49): a decoded command is
well-formed, encodes to the same word, and to a `DIN` that agrees in every bit the word reads. -/
def Obligations.EncodeOfDecodeIsIdentity : Prop :=
  ∀ (cmd : CmdWord) (din : Operand) (i : Instr), decode cmd din = .ok i →
    i.wf = true ∧ (encode i).1 = cmd ∧ sameDin cmd (encode i).2 din

/-- A word is the command of a row of the opcode map exactly when its masked bits are the row's
(30_encoding.md R48), an IMPORT with `SRC = 3` apart (R51). -/
def Obligations.DecodeAgreesWithOpcodeMap : Prop :=
  ∀ (cmd : CmdWord) (din : Operand), ∀ r ∈ opcodeMap,
    (∃ i, decode cmd din = .ok i ∧ i.mnemonic = r.mnemonic) ↔
      (r.hits cmd = true ∧ ¬ (r.mnemonic = "IMPORT" ∧ fieldSrc din = 3#2))

/-- No word matches two rows of the opcode map (30_encoding.md R49). -/
def Obligations.OpcodeMapRowsAreDisjoint : Prop :=
  ∀ cmd : CmdWord, ∀ p ∈ opcodeMap, ∀ q ∈ opcodeMap, p.hits cmd = true → q.hits cmd = true → p = q

/-- 30_encoding.md R50: a word that matches no row completes with code 7 and changes nothing else;
the reserved opcodes, any word with `Z` not zero, any word of a command with a one in a field the
command does not use, the all-zero word and the all-ones word are such words. -/
def Obligations.IllegalWordSetsCodeSevenOnly : Prop :=
  (∀ (cmd : CmdWord) (din : Operand) (s : State), (∀ r ∈ opcodeMap, r.hits cmd = false) →
    issue cmd din s = .next { s with err := 7#4 }) ∧
  (∀ cmd : CmdWord, reservedWord cmd = true → ∀ r ∈ opcodeMap, r.hits cmd = false) ∧
  (∀ cmd : CmdWord, (fieldOp cmd = 0x1#4 ∨ fieldOp cmd = 0x2#4) →
    (fieldRow cmd ≠ 0#3 ∨ fieldCol cmd ≠ 0#3) → ∀ r ∈ opcodeMap, r.hits cmd = false) ∧
  (∀ cmd : CmdWord, fieldOp cmd = 0x6#4 → fieldIdx cmd ≠ 0#16 →
    ∀ r ∈ opcodeMap, r.hits cmd = false) ∧
  (∀ cmd : CmdWord, (fieldOp cmd = 0x3#4 ∨ fieldOp cmd = 0x4#4 ∨ fieldOp cmd = 0x5#4 ∨
      fieldOp cmd = 0x7#4 ∨ fieldOp cmd = 0x8#4 ∨ fieldOp cmd = 0x9#4) →
    (fieldRow cmd ≠ 0#3 ∨ fieldCol cmd ≠ 0#3 ∨ fieldIdx cmd ≠ 0#16) →
    ∀ r ∈ opcodeMap, r.hits cmd = false) ∧
  (∀ r ∈ opcodeMap, r.hits 0x00000000#32 = false ∧ r.hits 0xFFFFFFFF#32 = false)

/-- 60_exceptions.md R126: `IllegalCommand`, code 7, is raised by every word that matches no command,
an IMPORT whose descriptor has `SRC = 3` among them. -/
def Obligations.NoCommandRaisesIllegalCommand : Prop :=
  ∀ (cmd : CmdWord) (din : Operand) (s : State),
    ((∀ r ∈ opcodeMap, r.hits cmd = false) ∨ (cmd = 0x90000000#32 ∧ fieldSrc din = 3#2)) →
    issue cmd din s = .next { s with err := 7#4 }

/-- `DIN` has no effect but in the bits the command reads: all for LDG, `SRC`, `W`, `H` for IMPORT,
none for the seven others (30_encoding.md R45, R51). -/
def Obligations.UnreadDinHasNoEffect : Prop :=
  ∀ (cmd : CmdWord) (d e : Operand) (s : State), sameDin cmd d e → issue cmd d s = issue cmd e s

/-! ### The step, reset, errors -/

/-- When the host issues a pair, the step is `issue` of that pair on the state with the host's action
taken: `exec` of the command where the pair decodes to one (20_memory.md R40, R42), and otherwise
code 7 and no other change, whatever the reason the word is no command (30_encoding.md R50,
60_exceptions.md R126). The list of the host's actions is log entry 1. -/
def Obligations.StepRunsTheIssuedCommand : Prop :=
  ∀ (s : State) (cmd : CmdWord) (din : Operand) (rest : List HostEvent),
    s.host = .issue cmd din :: rest →
    step s = issue cmd din { s with host := rest } ∧
    (∀ i : Instr, decode cmd din = .ok i → step s = exec i { s with host := rest }) ∧
    (∀ e : Illegal, decode cmd din = .error e → step s = .next { s with host := rest, err := 7#4 })

/-- Nothing happens in the unit except in response to an issued command (60_exceptions.md R129);
after reset it waits (70_reset_and_hazards.md R141). That waiting is a step of its own, over a list
of the host's actions, is the model's form (log entries 1 and 2). -/
def Obligations.IdleUnitWaits : Prop :=
  ∀ s : State, s.host = [] → step s = .next s

/-- The image source changes only between commands and is the host's: presenting an image changes
nothing of the unit (00_scope.md R7, 70_reset_and_hazards.md R146). -/
def Obligations.PresentingAnImageLeavesTheUnit : Prop :=
  ∀ (s : State) (img : Image) (rest : List HostEvent), s.host = .present img :: rest →
    ∃ t, step s = .next t ∧ SameUnit s t ∧ t.image = img ∧ t.host = rest

/-- 70_reset_and_hazards.md R140: `RESET`, also one that cuts a command short, leaves every element of
the unit's state zero; the abandoned command leaves no trace, whatever it was. That the image source and the host's further
actions stay as they are is the model's reading (log entry 8). -/
def Obligations.ResetEventClearsTheUnit : Prop :=
  ∀ (s : State) (e : HostEvent) (rest : List HostEvent), s.host = e :: rest →
    (e = .reset ∨ ∃ cmd din, e = .abandon cmd din) →
    ∃ t, step s = .next t ∧ (∀ i < 256, readGlyph t.rs i = 0#64) ∧ (∀ a, readByte t.rs a = 0#8) ∧
      t.gr = 0#64 ∧ t.bg = 0#64 ∧ t.pv = 0#64 ∧ t.err = 0#4 ∧ t.image = s.image ∧ t.host = rest

/-- 10_state.md R24: after reset every element of the unit's state is zero, `BG` and `PV` are the
renderings of `GR = 0`, and `PVCH` shows four lines of four spaces. That the character between the
lines is U+000A is the spec's general knowledge (log entry 10), no rule of its source. -/
def Obligations.ResetStateIsZero : Prop :=
  (∀ i < 256, readGlyph State.reset.rs i = 0#64) ∧ State.reset.gr = 0#64 ∧
  State.reset.bg = 0#64 ∧ State.reset.pv = 0#64 ∧ State.reset.err = 0#4 ∧
  State.reset.bg = packGrid (toBitGrid State.reset.gr) ∧
  State.reset.pv = previewCodes State.reset.gr ∧
  portPvch State.reset =
    [0x20#16, 0x20#16, 0x20#16, 0x20#16, 0x0A#16, 0x20#16, 0x20#16, 0x20#16, 0x20#16, 0x0A#16,
     0x20#16, 0x20#16, 0x20#16, 0x20#16, 0x0A#16, 0x20#16, 0x20#16, 0x20#16, 0x20#16]

/-- Every command and every word completes: the unit is never stuck or halted
(60_exceptions.md R131). -/
def Obligations.EveryStepGoesOn : Prop := ∀ s : State, goesOn (step s)

/-- A failed command is observably no command, but for `ST.ERR` (60_exceptions.md R121, R130). -/
def Obligations.FailedCommandChangesOnlyErr : Prop :=
  ∀ (cmd : CmdWord) (din : Operand) (s t : State), issue cmd din s = .next t → t.err ≠ 0#4 →
    t = { s with err := t.err } ∧ ∀ a, readByte t.rs a = readByte s.rs a

/-- Every command writes `ST.ERR` when it completes, whatever it held: 0, 1, 4, 5, 6 or 7
(10_state.md R21, 60_exceptions.md R120). -/
def Obligations.EveryCommandWritesALegalCode : Prop :=
  ∀ (cmd : CmdWord) (din : Operand) (s : State) (c : ErrCode),
    ∃ t, issue cmd din s = .next t ∧ issue cmd din { s with err := c } = .next t ∧
      legalErr t.err = true

/-! ### The invariant -/

/-- The state after reset meets the invariant (10_state.md R24; the images' form and the image after
reset are the model's own, log entries 3 and 4). -/
def Obligations.ResetMeetsInvariant : Prop := State.reset.Inv

/-- Every step keeps the invariant: the canonical form of the store and of the images, and a legal
result code (10_state.md R21; the form is the model's own, log entry 5). -/
def Obligations.StepKeepsInvariant : Prop :=
  ∀ s t : State, s.Inv → step s = .next t → t.Inv

/-! ### RDAT, STAT, LDG -/

/-- RDAT of a valid index loads the entry into `GR` and changes nothing else (41_container.md R71). -/
def Obligations.RdatLoadsTheEntry : Prop :=
  ∀ (idx : Int) (s : State), 0 ≤ idx → idx ≤ 255 →
    ∃ t, exec (.rdat idx) s = .next t ∧ t.gr = readGlyph s.rs idx.toNat ∧
      (∀ r < 8, row t.gr r = readByte s.rs (8 * idx.toNat + r)) ∧ t.err = 0#4 ∧
      t.rs = s.rs ∧ (∀ a, readByte t.rs a = readByte s.rs a) ∧ t.bg = s.bg ∧ t.pv = s.pv ∧
      t.image = s.image ∧ t.host = s.host

/-- STAT of a valid index stores `GR` whole at that entry, its row `r` at the address
`rowAddress (glyphIndex idx) r` the meaning writes, and changes no other byte and no register but
`ST.ERR` (41_container.md R72). -/
def Obligations.StatStoresTheGlyph : Prop :=
  ∀ (idx : Int) (s : State), 0 ≤ idx → idx ≤ 255 →
    ∃ t, exec (.stat idx) s = .next t ∧ readGlyph t.rs idx.toNat = s.gr ∧
      (∀ r < 8, readByte t.rs (rowAddress (glyphIndex idx) r) = row s.gr r) ∧
      (∀ a, (∀ r < 8, a ≠ rowAddress (glyphIndex idx) r) → readByte t.rs a = readByte s.rs a) ∧
      (∀ k, k ≠ idx.toNat → readGlyph t.rs k = readGlyph s.rs k) ∧
      t.err = 0#4 ∧ t.gr = s.gr ∧ t.bg = s.bg ∧ t.pv = s.pv ∧ t.image = s.image ∧ t.host = s.host

/-- 41_container.md R70: for the command words of RDAT and STAT with any value of `IDX`, the index is
valid exactly when `0 <= idx <= 255`, and then the entry read or stored is `idx` itself; otherwise the
command completes with code 1 and nothing else changes. -/
def Obligations.IndexCheckOfRdatAndStat : Prop :=
  ∀ (op : BitVec 4) (v : BitVec 16) (din : Operand) (s : State), (op = 0x1#4 ∨ op = 0x2#4) →
    ∃ t, issue (formatC op 0#3 0#3 v) din s = .next t ∧
      (if 0 ≤ v.toInt ∧ v.toInt ≤ 255 then
        (op = 0x1#4 → t = { s with gr := readGlyph s.rs v.toInt.toNat, err := 0#4 }) ∧
        (op = 0x2#4 → t = { s with rs := t.rs, err := 0#4 } ∧
          readGlyph t.rs v.toInt.toNat = s.gr ∧
          ∀ k, k ≠ v.toInt.toNat → readGlyph t.rs k = readGlyph s.rs k)
      else t = { s with err := 1#4 })

/-- LDG loads the whole of `DIN` into `GR` and changes nothing else (41_container.md R73). -/
def Obligations.LdgLoadsTheOperand : Prop :=
  ∀ (din : Operand) (s : State),
    issue 0x30000000#32 din s = exec (.ldg din) s ∧
    ∃ t, exec (.ldg din) s = .next t ∧ t.gr = din ∧ t.err = 0#4 ∧
      t.rs = s.rs ∧ (∀ a, readByte t.rs a = readByte s.rs a) ∧ t.bg = s.bg ∧ t.pv = s.pv ∧
      t.image = s.image ∧ t.host = s.host

/-- The store behaves as 256 independent cells (41_container.md R74): after a STAT, an RDAT yields
the stored glyph at that index and the old one at every other. -/
def Obligations.StoreThenReadBack : Prop :=
  ∀ (i k : Int) (s : State), 0 ≤ i → i ≤ 255 → 0 ≤ k → k ≤ 255 →
    ∃ t u, exec (.stat i) s = .next t ∧ exec (.rdat k) t = .next u ∧
      u.gr = if k = i then s.gr else readGlyph s.rs k.toNat

/-- Two canonical stores are the same data exactly when all 256 glyphs are equal
(10_state.md R13; the form is the model's own, log entry 5). -/
def Obligations.EqualGlyphsAreEqualStores : Prop :=
  ∀ m n : Memory, m.wf → n.wf → (sameGlyphs m n ↔ m = n)

/-! ### INV, REV, TGL -/

/-- INV complements every pixel, which is the complement of all 64 bits, and changes nothing else
(40_transforms.md R61). -/
def Obligations.InvComplementsEveryPixel : Prop :=
  ∀ s : State, ∃ t, exec .inv s = .next t ∧ t.gr = ~~~s.gr ∧
    (∀ i < 8, row t.gr i = ~~~(row s.gr i)) ∧
    (∀ i < 8, ∀ j < 8, px t.gr i j = !px s.gr i j) ∧ t.err = 0#4 ∧
    t.rs = s.rs ∧ (∀ a, readByte t.rs a = readByte s.rs a) ∧ t.bg = s.bg ∧ t.pv = s.pv ∧
    t.image = s.image ∧ t.host = s.host

/-- REV exchanges columns `j` and `7 - j` of every row, keeps the order of the rows, and changes
nothing else (40_transforms.md R62). -/
def Obligations.RevMirrorsEveryRow : Prop :=
  ∀ s : State, ∃ t, exec .rev s = .next t ∧
    (∀ i < 8, ∀ j < 8, px t.gr i j = px s.gr i (7 - j)) ∧
    (∀ i < 8, row t.gr i = (row s.gr i).reverse) ∧ t.err = 0#4 ∧
    t.rs = s.rs ∧ (∀ a, readByte t.rs a = readByte s.rs a) ∧ t.bg = s.bg ∧ t.pv = s.pv ∧
    t.image = s.image ∧ t.host = s.host

/-- TGL flips exactly the pixel (`row`, `col`), which is the XOR of bit `8*row + col`, and changes
nothing else (40_transforms.md R63). -/
def Obligations.TglFlipsExactlyOnePixel : Prop :=
  ∀ (r c : Fin 8) (s : State), ∃ t, exec (.tgl r c) s = .next t ∧
    t.gr = s.gr ^^^ (1#64 <<< (8 * r.val + c.val)) ∧
    (∀ i < 8, ∀ j < 8, px t.gr i j = (px s.gr i j ^^ decide (i = r.val ∧ j = c.val))) ∧
    t.err = 0#4 ∧
    t.rs = s.rs ∧ (∀ a, readByte t.rs a = readByte s.rs a) ∧ t.bg = s.bg ∧ t.pv = s.pv ∧
    t.image = s.image ∧ t.host = s.host

/-- 40_transforms.md R64: two INV in succession, or two REV, leave `GR` as it was. -/
def Obligations.InvAndRevAreInvolutions : Prop :=
  (∀ g : Glyph, reverseGlyph (reverseGlyph g) = g ∧ invertGlyph (invertGlyph g) = g) ∧
  ∀ s : State,
    (∃ t u, exec .inv s = .next t ∧ exec .inv t = .next u ∧ u = { s with err := 0#4 }) ∧
    (∃ t u, exec .rev s = .next t ∧ exec .rev t = .next u ∧ u = { s with err := 0#4 })

/-- The laws of 40_transforms.md R65: INV and REV commute; TGL is an involution, commutes with every
TGL and with INV, and meets REV with its column mirrored; Invert has no fixed point; Reverse fixes
exactly the glyphs whose rows are palindromes. -/
def Obligations.TransformLaws : Prop :=
  (∀ g, invertGlyph (reverseGlyph g) = reverseGlyph (invertGlyph g)) ∧
  (∀ r < 8, ∀ c < 8, ∀ g, toggleGlyph r c (toggleGlyph r c g) = g) ∧
  (∀ r < 8, ∀ c < 8, ∀ r' < 8, ∀ c' < 8, ∀ g,
    toggleGlyph r c (toggleGlyph r' c' g) = toggleGlyph r' c' (toggleGlyph r c g)) ∧
  (∀ r < 8, ∀ c < 8, ∀ g,
    toggleGlyph r c (reverseGlyph g) = reverseGlyph (toggleGlyph r (7 - c) g)) ∧
  (∀ r < 8, ∀ c < 8, ∀ g, invertGlyph (toggleGlyph r c g) = toggleGlyph r c (invertGlyph g)) ∧
  (∀ g, invertGlyph g ≠ g) ∧
  (∀ g, reverseGlyph g = g ↔ ∀ i < 8, (row g i).reverse = row g i)

/-- INV, REV and TGL act on each row alone: row `i` of the result depends only on row `i` of the
operand (40_transforms.md R60). -/
def Obligations.TransformsActRowByRow : Prop :=
  ∀ (g h : Glyph), ∀ i < 8, row g i = row h i →
    row (invertGlyph g) i = row (invertGlyph h) i ∧
    row (reverseGlyph g) i = row (reverseGlyph h) i ∧
    ∀ r < 8, ∀ c < 8, row (toggleGlyph r c g) i = row (toggleGlyph r c h) i ∧
      (i ≠ r → row (toggleGlyph r c g) i = row g i)

/-! ### GRID, PRV -/

/-- GRID sets `BG[8i + j]` to the bit test of row `i`, column `j`, so `BG` holds the bits of `GR`; it
changes nothing else (43_preview.md R90). -/
def Obligations.GridExpandsTheGlyph : Prop :=
  ∀ s : State, ∃ t, exec .grid s = .next t ∧
    (∀ i < 8, ∀ j < 8, t.bg.getLsbD (8 * i + j) = decide ((row s.gr i >>> j) &&& 1#8 = 1#8)) ∧
    t.bg = s.gr ∧ t.err = 0#4 ∧
    t.rs = s.rs ∧ (∀ a, readByte t.rs a = readByte s.rs a) ∧ t.gr = s.gr ∧ t.pv = s.pv ∧
    t.image = s.image ∧ t.host = s.host

/-- PRV sets code (`cy`, `cx`) of `PV` to `TL + 2 TR + 4 BL + 8 BR` of that cell, which permutes the
64 bits of `GR`; it changes nothing else (43_preview.md R93). -/
def Obligations.PrvRendersTheCells : Prop :=
  ∀ s : State, ∃ t, exec .prv s = .next t ∧
    (∀ cy < 4, ∀ cx < 4, (nibble t.pv (4 * cy + cx)).toNat
      = (px s.gr (2 * cy) (2 * cx)).toNat + 2 * (px s.gr (2 * cy) (2 * cx + 1)).toNat
        + 4 * (px s.gr (2 * cy + 1) (2 * cx)).toNat
        + 8 * (px s.gr (2 * cy + 1) (2 * cx + 1)).toNat) ∧
    (∀ cy < 4, ∀ cx < 4, ∀ a < 2, ∀ b < 2,
      t.pv.getLsbD (4 * (4 * cy + cx) + 2 * a + b)
        = s.gr.getLsbD (8 * (2 * cy + a) + 2 * cx + b)) ∧
    t.err = 0#4 ∧
    t.rs = s.rs ∧ (∀ a, readByte t.rs a = readByte s.rs a) ∧ t.gr = s.gr ∧ t.bg = s.bg ∧
    t.image = s.image ∧ t.host = s.host

/-- The quadrant code by shifts and masks of two rows (43_preview.md R91, its equivalent form). -/
def Obligations.QuadrantCodeByShifts : Prop :=
  ∀ g : Glyph, ∀ cy < 4, ∀ cx < 4, quadrantCode g cy cx
    = (((row g (2 * cy) >>> (2 * cx)) &&& 3#8) |||
       (((row g (2 * cy + 1) >>> (2 * cx)) &&& 3#8) <<< 2)).toNat

/-- How the codes meet the transforms (43_preview.md R96): those of the inverse are 15 minus the
codes; those of the mirror image are the codes of the mirrored cells with left and right exchanged. -/
def Obligations.CodesOfInverseAndMirror : Prop :=
  ∀ g : Glyph, ∀ cy < 4, ∀ cx < 4,
    quadrantCode (invertGlyph g) cy cx = 15 - quadrantCode g cy cx ∧
    ∀ k < 4, (quadrantCode (reverseGlyph g) cy cx).testBit k
      = (quadrantCode g cy (3 - cx)).testBit (k ^^^ 1)

/-- `PVCH` is nineteen code points (43_preview.md R94): the table's character of each code, a newline
between lines and none after the last. The newline U+000A is the spec's general knowledge (log
entry 10). -/
def Obligations.PreviewTextLayout : Prop :=
  ∀ pv : BitVec 64, (previewChars pv).length = 19 ∧
    (∀ cy < 4, ∀ cx < 4,
      (previewChars pv)[5 * cy + cx]? = some (quadChar (nibble pv (4 * cy + cx)))) ∧
    (∀ cy < 3, (previewChars pv)[5 * cy + 4]? = some 0x000A#16)

/-- Preview determinism (43_preview.md R95): after PRV of the blank glyph `PVCH` shows sixteen spaces,
after PRV of the full glyph sixteen full blocks. -/
def Obligations.PreviewOfBlankAndFull : Prop :=
  ∀ (s : State) (cy cx : Nat), cy < 4 → cx < 4 →
    (s.gr = 0#64 → ∃ t, exec .prv s = .next t ∧
      (portPvch t)[5 * cy + cx]? = some 0x0020#16) ∧
    (s.gr = 0xFFFFFFFFFFFFFFFF#64 → ∃ t, exec .prv s = .next t ∧
      (portPvch t)[5 * cy + cx]? = some 0x2588#16)

/-- The table of 43_preview.md R92: the sixteen code points in the order of the codes; they are
distinct, and their UTF-8 bytes encode them. -/
def Obligations.QuadrantTableIsSound : Prop :=
  (List.range 16).map (fun c => quadChar (BitVec.ofNat 4 c)) =
    [0x0020#16, 0x2598#16, 0x259D#16, 0x2580#16, 0x2596#16, 0x258C#16, 0x259E#16, 0x259B#16,
     0x2597#16, 0x259A#16, 0x2590#16, 0x259C#16, 0x2584#16, 0x2599#16, 0x259F#16, 0x2588#16] ∧
  (∀ c d : Nibble, quadChar c = quadChar d → c = d) ∧
  ∀ c : Nibble, (quadEntry c).utf8 =
    if (quadChar c).toNat < 128 then [BitVec.ofNat 8 (quadChar c).toNat]
    else [BitVec.ofNat 8 (0xE0 + (quadChar c).toNat / 4096),
          BitVec.ofNat 8 (0x80 + (quadChar c).toNat / 64 % 64),
          BitVec.ofNat 8 (0x80 + (quadChar c).toNat % 64)]

/-! ### IMPORT -/

/-- A successful IMPORT puts the pixel test of image pixel (`x`, `y`) into glyph
`32*(y div 8) + (x div 8)`, row `y mod 8`, column `x mod 8`, for every pixel, and changes nothing but
the store and `ST.ERR` (44_import.md R104, R105, R106, R107). -/
def Obligations.ImportRasterizesTheImage : Prop :=
  ∀ s : State, ∃ t, exec (.importFont .decoded 256#16 64#16) s = .next t ∧
    (∀ x < 256, ∀ y < 64,
      px (readGlyph t.rs (32 * (y / 8) + x / 8)) (y % 8) (x % 8)
        = decide ((pixRead s.image x y).r = 0 ∧ (pixRead s.image x y).g = 0 ∧
            (pixRead s.image x y).b = 0)) ∧
    (∀ a, 2048 ≤ a → readByte t.rs a = 0#8) ∧
    t.err = 0#4 ∧ t.gr = s.gr ∧ t.bg = s.bg ∧ t.pv = s.pv ∧ t.image = s.image ∧ t.host = s.host

/-- The word of IMPORT with `SRC = 1`, `SRC = 2`, and `SRC = 0` with a wrong size completes with code
4, 5 and 6 and changes nothing else; the size is not looked at when `SRC` is not 0
(44_import.md R101, R102, R103). -/
def Obligations.ImportChecksInOrder : Prop :=
  ∀ (din : Operand) (s : State),
    (fieldSrc din = 1#2 → issue 0x90000000#32 din s = .next { s with err := 4#4 }) ∧
    (fieldSrc din = 2#2 → issue 0x90000000#32 din s = .next { s with err := 5#4 }) ∧
    (fieldSrc din = 0#2 → (fieldW din ≠ 256#16 ∨ fieldH din ≠ 64#16) →
      issue 0x90000000#32 din s = .next { s with err := 6#4 }) ∧
    (fieldSrc din = 0#2 → fieldW din = 256#16 → fieldH din = 64#16 →
      issue 0x90000000#32 din s = exec (.importFont .decoded 256#16 64#16) s)

/-- 44_import.md R108: the result of IMPORT depends only on the 16384 values `black(PixRead(x, y))`,
so not on the old store either (R107). -/
def Obligations.ImportDependsOnBlackPixelsOnly : Prop :=
  ∀ s u : State,
    (∀ x < 256, ∀ y < 64, black (pixRead s.image x y) = black (pixRead u.image x y)) →
    ∃ t v, exec (.importFont .decoded 256#16 64#16) s = .next t ∧
      exec (.importFont .decoded 256#16 64#16) u = .next v ∧ t.rs = v.rs

/-- Every state of the store is reachable by one IMPORT (44_import.md R109): the image that shows any
256 glyphs imports to exactly those glyphs, and to their byte layout. -/
def Obligations.EveryFontIsImportable : Prop :=
  ∀ (g : Nat → Glyph) (s : State), s.image = imageOf g →
    ∃ t, exec (.importFont .decoded 256#16 64#16) s = .next t ∧
      (∀ n < 256, readGlyph t.rs n = g n) ∧
      storeBytes t.rs = (List.range 2048).map fun a => row (g (a / 8)) (a % 8)

/-- The pixel addresses of 44_import.md R110: they fit the ports `PX_X` and `PX_Y`, and the index
fields are the fields of the coordinates. -/
def Obligations.PixelAddressesFitThePorts : Prop :=
  ∀ n < 256, ∀ r < 8, ∀ c < 8,
    (portPxX n c).toNat = 8 * (n % 32) + c ∧ (portPxY n r).toNat = 8 * (n / 32) + r ∧
    ((portPxY n r).extractLsb' 3 3 ++ (portPxX n c).extractLsb' 3 5).toNat = n ∧
    ((portPxX n c).extractLsb' 0 3).toNat = c ∧ ((portPxY n r).extractLsb' 0 3).toNat = r

/-! ### Promises of the whole machine -/

/-- The store is written by STAT and by a successful IMPORT only (10_state.md R14). -/
def Obligations.OnlyStatAndImportWriteTheStore : Prop :=
  ∀ (i : Instr) (s t : State), exec i s = .next t → t.rs ≠ s.rs →
    t.err = 0#4 ∧ ((∃ idx, i = .stat idx) ∨ i = .importFont .decoded 256#16 64#16)

/-- Who writes the registers (10_state.md R16, R17, 70_reset_and_hazards.md R149): `GR` by RDAT, LDG,
INV, REV, TGL only, `BG` by GRID only, `PV` by PRV only. -/
def Obligations.WritersOfTheRegisters : Prop :=
  ∀ (i : Instr) (s t : State), exec i s = .next t →
    (t.gr ≠ s.gr → (∃ idx, i = .rdat idx) ∨ (∃ v, i = .ldg v) ∨ i = .inv ∨ i = .rev ∨
      ∃ r c, i = .tgl r c) ∧
    (t.bg ≠ s.bg → i = .grid) ∧ (t.pv ≠ s.pv → i = .prv)

/-- The unit never writes the image pixel space (20_memory.md R35), and no command touches what the
host does next (log entry 1). -/
def Obligations.CommandsLeaveTheHostAlone : Prop :=
  ∀ (cmd : CmdWord) (din : Operand) (s t : State), issue cmd din s = .next t →
    t.image = s.image ∧ t.host = s.host

/-- No command's result depends on `ST.ERR`, `BG` or `PV` (10_state.md R19, 43_preview.md R95): two
states with the same store, working glyph and image answer with the same store, working glyph, image
and result code, and a GRID with the same `BG`, a PRV with the same `PV`. -/
def Obligations.OutputsNeverFlowBack : Prop :=
  ∀ (cmd : CmdWord) (din : Operand) (s u t v : State), SameInputs s u →
    issue cmd din s = .next t → issue cmd din u = .next v →
    SameInputs t v ∧ t.err = v.err ∧
    (decode cmd din = .ok .grid → t.bg = v.bg) ∧ (decode cmd din = .ok .prv → t.pv = v.pv)

/-! ### The byte layout and the codec -/

/-- The layout of 20_memory.md R32: 2048 bytes, row `r` of glyph `i` at `8i + r`, which is byte
`8i + r` of the store. -/
def Obligations.ByteLayoutOfTheStore : Prop :=
  ∀ m : Memory, (storeBytes m).length = 2048 ∧
    ∀ i < 256, ∀ r < 8, (storeBytes m)[8 * i + r]? = some (row (readGlyph m i) r) ∧
      readByte m (8 * i + r) = row (readGlyph m i) r

/-- The eight bytes of glyph `i` read as one little-endian number are `RS[i]` (20_memory.md R34, a
consequence of the packing). -/
def Obligations.GlyphIsLittleEndian : Prop :=
  ∀ (m : Memory) (i : Nat), i < 256 →
    ∃ bs, memRead m (8 * i) 8 = some bs ∧ littleEndian bs = (readGlyph m i).toNat

/-- `MemRead` gives what `MemWrite` wrote, and every other byte is kept (20_memory.md R33). The canonical form, which a write keeps, is the
model's own (log entry 5). -/
def Obligations.MemReadAfterMemWrite : Prop :=
  ∀ (m : Memory) (a : Nat) (v : List Byte), a + v.length ≤ 2048 →
    ∃ n, memWrite m a v = some n ∧ memRead n a v.length = some v ∧
      (∀ k, k < a ∨ a + v.length ≤ k → readByte n k = readByte m k) ∧ (m.wf → n.wf)

/-- 42_codec.md R84: for every state of the store, decoding its 2048 bytes gives the same 256 glyphs;
in canonical form, which is the model's own (log entry 5), it is the same store. -/
def Obligations.DecodeOfStoreBytes : Prop :=
  ∀ m : Memory, ∃ n, decodeBytes (storeBytes m) = some n ∧ sameGlyphs n m ∧ (m.wf → n = m)

/-- 42_codec.md R85: for every 2048-byte buffer, decoding then encoding gives the same bytes.
The decoded store has the canonical form, which is the model's own (log entry 5). -/
def Obligations.StoreBytesOfDecode : Prop :=
  ∀ b : List Byte, b.length = 2048 → ∃ m, decodeBytes b = some m ∧ storeBytes m = b ∧ m.wf

/-- The length guard (42_codec.md R82, R83): any other length fails with code 2 before any command.
That `decodeBytes` answers no store beside the error is the model's choice (log entry 14). -/
def Obligations.DecodeGuardsTheLength : Prop :=
  ∀ (b : List Byte) (s : State), b.length ≠ 2048 →
    decodeBytes b = none ∧ decodeProcedure b s = .next (s, 2#4)

/-- The host procedure ENCODE (42_codec.md R81) returns the store's byte layout, leaves the store, and
leaves `GR = RS[255]` and `ST.ERR = 0`. -/
def Obligations.EncodeProcedureReturnsTheLayout : Prop :=
  ∀ s : State, ∃ t, encodeProcedure s = .next (t, storeBytes s.rs) ∧ t.rs = s.rs ∧
    t.gr = readGlyph s.rs 255 ∧ t.err = 0#4 ∧ t.bg = s.bg ∧ t.pv = s.pv ∧
    t.image = s.image ∧ t.host = s.host

/-- The host procedure DECODE (42_codec.md R83) replaces the store by what `Decode` says, and leaves
glyph 255 of the buffer in `GR`. That the store is then the same data as `Decode`'s needs the
canonical form, which is the model's own (log entry 5). -/
def Obligations.DecodeProcedureReplacesTheStore : Prop :=
  ∀ (b : List Byte) (s : State), b.length = 2048 →
    ∃ t, decodeProcedure b s = .next (t, 0#4) ∧ storeBytes t.rs = b ∧
      (s.rs.wf → decodeBytes b = some t.rs) ∧ t.gr = glyphAt b 255 ∧ t.err = 0#4 ∧
      t.bg = s.bg ∧ t.pv = s.pv ∧ t.image = s.image ∧ t.host = s.host

/-! ### Pseudo-instructions and files -/

/-- The editing compositions (41_container.md R75): for a valid index the entry ends as stated, `GR`
holds it, and every other entry is kept. -/
def Obligations.EditingCompositions : Prop :=
  ∀ (idx : Int) (g : Glyph) (r c : Fin 8) (s : State), 0 ≤ idx → idx ≤ 255 →
    ∀ q ∈ [(Pseudo.invert idx, invertGlyph (readGlyph s.rs idx.toNat)),
           (Pseudo.mirror idx, reverseGlyph (readGlyph s.rs idx.toNat)),
           (Pseudo.toggle idx r c, readGlyph s.rs idx.toNat ^^^ (1#64 <<< (8 * r.val + c.val))),
           (Pseudo.clear idx, 0#64), (Pseudo.paste g idx, g), (Pseudo.setat g idx, g)],
      ∃ t, runPseudo q.1 s = .next t ∧ readGlyph t.rs idx.toNat = q.2 ∧ t.gr = q.2 ∧
        (∀ k, k ≠ idx.toNat → readGlyph t.rs k = readGlyph s.rs k) ∧ t.err = 0#4 ∧
        t.bg = s.bg ∧ t.pv = s.pv

/-- What the host has of a pseudo-instruction (30_encoding.md R55). On a valid index READAT reads
`GOUT`, SHOW `PVCH` and EDITVIEW `BGOUT`, each of the entry. On an index out of range READAT, INVERT,
MIRROR, TOGGLE, SHOW and EDITVIEW stop at their RDAT with nothing changed but the code, and SETAT,
CLEAR and PASTE at their STAT, with the loaded glyph in `GR` and nothing of the store changed
(41_container.md R75). The report is then the code 1; that it holds no value beside the code is the
model's choice (log entry 14). -/
def Obligations.PseudoInstructionsReport : Prop :=
  ∀ (idx : Int) (g : Glyph) (r c : Fin 8) (s : State),
    (0 ≤ idx → idx ≤ 255 → ∀ e, e = readGlyph s.rs idx.toNat →
      callPseudo (.readat idx) s = .next ({ s with gr := e, err := 0#4 }, .glyph e) ∧
      callPseudo (.showGlyph idx) s = .next ({ s with gr := e, pv := previewCodes e, err := 0#4 },
        .characters (previewChars (previewCodes e))) ∧
      callPseudo (.editview idx) s
        = .next ({ s with gr := e, bg := e, err := 0#4 }, .grid e)) ∧
    ((idx < 0 ∨ 255 < idx) →
      (∀ p ∈ [Pseudo.readat idx, .invert idx, .mirror idx, .toggle idx r c, .showGlyph idx,
          .editview idx],
        runPseudo p s = .next { s with err := 1#4 } ∧
        callPseudo p s = .next ({ s with err := 1#4 }, .failed 1#4)) ∧
      ∀ q ∈ [(Pseudo.setat g idx, g), (.clear idx, 0#64), (.paste g idx, g)],
        runPseudo q.1 s = .next { s with gr := q.2, err := 1#4 } ∧
        callPseudo q.1 s = .next ({ s with gr := q.2, err := 1#4 }, .failed 1#4))

/-- The four outcomes of LOAD (45_file_gateway.md R113 to R116), the unit's part and the report. An
absent path leaves the store zero-valued: with no command where `fresh` says that the unit is as
reset left it, so that every glyph is zero already, and by clearing every entry otherwise. The flag
`fresh`, and that the report of an unreadable file says found, are log entry 11. -/
def Obligations.LoadOutcomes : Prop :=
  ∀ (fresh : Bool) (b : List Byte) (s : State),
    (fresh = true → (∀ i < 256, readGlyph s.rs i = 0#64) →
      ∃ t, loadProcedure fresh .absent s = .next (t, ⟨false, 0#4⟩) ∧ t = s ∧
        ∀ i < 256, readGlyph t.rs i = 0#64) ∧
    (fresh = false → ∃ t, loadProcedure fresh .absent s = .next (t, ⟨false, 0#4⟩) ∧
      (∀ i < 256, readGlyph t.rs i = 0#64) ∧ t.bg = s.bg ∧ t.pv = s.pv) ∧
    loadProcedure fresh .unreadable s = .next (s, ⟨true, 3#4⟩) ∧
    (b.length ≠ 2048 → loadProcedure fresh (.readable b) s = .next (s, ⟨true, 2#4⟩)) ∧
    (b.length = 2048 → ∃ t, loadProcedure fresh (.readable b) s = .next (t, ⟨true, 0#4⟩) ∧
      storeBytes t.rs = b)

/-- SAVE writes the store's 2048 bytes, or reports the write's own error unchanged, and never changes
the store (45_file_gateway.md R117). -/
def Obligations.SaveKeepsTheStore : Prop :=
  ∀ (e : Nat) (s : State),
    ∃ t, saveProcedure none s = .next (t, .written (storeBytes s.rs)) ∧
      saveProcedure (some e) s = .next (t, .failed e) ∧ t.rs = s.rs

/-- IMPORTIMAGE (44_import.md R111) returns the code of its IMPORT: 4 and 5 for a missing and an
undecodable file, 6 for any other size, also one too large to describe (R110, log entry 12), and
0 with the font replaced. -/
def Obligations.ImportImageReturnsTheCode : Prop :=
  ∀ (w h : Nat) (img : Image) (s : State),
    importImageProcedure .absent s = .next ({ s with err := 4#4 }, 4#4) ∧
    importImageProcedure .undecodable s = .next ({ s with err := 5#4 }, 5#4) ∧
    ((w ≠ 256 ∨ h ≠ 64) → importImageProcedure (.decoded w h img) s
      = .next ({ s with image := img, err := 6#4 }, 6#4)) ∧
    ∃ t, importImageProcedure (.decoded 256 64 img) s = .next (t, 0#4) ∧
      (∀ n < 256, readGlyph t.rs n = importGlyph img n) ∧ t.gr = s.gr ∧ t.bg = s.bg ∧ t.pv = s.pv

/-- The syntax of 30_encoding.md R54, row by row: the line assembles to the row's command and to its
`CMD` and `DIN`, with every operand in the row's range, written in decimal or in hexadecimal, and
with or without a comment. And every line that assembles encodes as a pair the decoder reads back as
the line's command (R52). One space after the mnemonic and one after each comma, and the case of the
hexadecimal digits, are readings of R54's own rows (log entry 13). -/
def Obligations.AssembledLinesDecode : Prop :=
  (∀ (t : List Char) (idx : Int), IndexText t idx → -32768 ≤ idx → idx ≤ 32767 →
    Assembles (['R', 'D', 'A', 'T', ' '] ++ t) (.rdat idx)
      (0x10000000#32 ||| (BitVec.ofInt 32 idx &&& 0xFFFF#32)) 0#64 ∧
    Assembles (['S', 'T', 'A', 'T', ' '] ++ t) (.stat idx)
      (0x20000000#32 ||| (BitVec.ofInt 32 idx &&& 0xFFFF#32)) 0#64) ∧
  (∀ (t : List Char) (n : Nat), NumberText t n → n < 2 ^ 64 →
    Assembles (['L', 'D', 'G', ' '] ++ t) (.ldg (BitVec.ofNat 64 n)) 0x30000000#32
      (BitVec.ofNat 64 n)) ∧
  (∀ (t : Fin 8 → List Char) (b : Fin 8 → Byte), (∀ k, NumberText (t k) (b k).toNat) →
    ∃ g : Glyph, (∀ k : Fin 8, row g k.val = b k) ∧
      Assembles (['L', 'D', 'G', ' ', 'g', 'l', 'y', 'p', 'h', '('] ++
          commaText [t 0, t 1, t 2, t 3, t 4, t 5, t 6, t 7] ++ [')'])
        (.ldg g) 0x30000000#32 g) ∧
  Assembles ['I', 'N', 'V'] .inv 0x40000000#32 0#64 ∧
  Assembles ['R', 'E', 'V'] .rev 0x50000000#32 0#64 ∧
  (∀ (tr tc : List Char) (r c : Fin 8), NumberText tr r.val → NumberText tc c.val →
    Assembles (['T', 'G', 'L', ' '] ++ commaText [tr, tc]) (.tgl r c)
      (0x60000000#32 ||| (BitVec.ofNat 32 r.val <<< 19) ||| (BitVec.ofNat 32 c.val <<< 16)) 0#64) ∧
  Assembles ['G', 'R', 'I', 'D'] .grid 0x70000000#32 0#64 ∧
  Assembles ['P', 'R', 'V'] .prv 0x80000000#32 0#64 ∧
  (∀ (tsrc tw th : List Char) (w h : BitVec 16), NumberText tw w.toNat → NumberText th h.toNat →
    ∀ q ∈ [(0, ImageStatus.decoded), (1, .notFound), (2, .undecodable)], NumberText tsrc q.1 →
    Assembles (['I', 'M', 'P', 'O', 'R', 'T', ' '] ++ commaText [tsrc, tw, th])
      (.importFont q.2 w h) 0x90000000#32
      (BitVec.ofNat 64 q.1 ||| (w.setWidth 64 <<< 16) ||| (h.setWidth 64 <<< 32))) ∧
  ∀ (line : List Char) (i : Instr), assembleLine line = .command i →
    ∃ w, assembleWords line = some w ∧ decode w.1 w.2 = .ok i
end

