-- ==== Sys2Proof/Laws/Assembler.lean ====
section
/-! SUPPORT. What each reader of the assembler does on the texts of 30_encoding.md R54, said once:
numbers, indices, operands separated by commas, and the parts of a line. -/

namespace Sys2Proof.Machine

/-- A character that ends no word, no operand and no line. -/
abbrev Plain (c : Char) : Prop := isBlankChar c = false ∧ c ≠ ',' ∧ c ≠ ';'

theorem digitChar_plain :
    ∀ (b : Bool) (d : Fin 16), Plain (digitChar b d.val) ∧ digitChar b d.val ≠ '-' ∧
      digitChar b d.val ≠ 'g' ∧ digitChar b d.val ≠ 'x' := by decide

theorem digitValue_decimal :
    ∀ d : Fin 10, digitValue 10 (digitChar false d.val) = some d.val := by decide

theorem digitValue_hexadecimal :
    ∀ (b : Bool) (d : Fin 16), digitValue 16 (digitChar b d.val) = some d.val := by decide

/-- Digits read in a base give their value in that base. -/
theorem readDigits_map {α : Type} (base : Nat) (ch : α → Char) (val : α → Nat)
    (h : ∀ d, digitValue base (ch d) = some (val d)) (ds : List α) (acc : Nat) :
    readDigits base acc (ds.map ch) = some ((ds.map val).foldl (fun v d => v * base + d) acc) := by
  induction ds generalizing acc with
  | nil => rfl
  | cons d ds ih => simp only [List.map_cons, readDigits, h, List.foldl_cons, ih]

/-- A text that writes a number is not empty, begins with no sign and no letter `g`, and holds plain
characters only. -/
theorem NumberText.chars {t : List Char} {n : Nat} (h : NumberText t n) :
    ∃ c u, t = c :: u ∧ c ≠ '-' ∧ c ≠ 'g' ∧ ∀ d ∈ t, Plain d := by
  have dec : ∀ d : Fin 10, ∃ e : Fin 16, e.val = d.val := fun d => ⟨⟨d.val, by omega⟩, rfl⟩
  rcases h with ⟨ds, hne, rfl, -⟩ | ⟨ds, hne, rfl, -⟩
  · cases ds with
    | nil => exact absurd rfl hne
    | cons d ds =>
      obtain ⟨e, he⟩ := dec d
      refine ⟨_, _, List.map_cons, ?_, ?_, ?_⟩
      · rw [← he]; exact (digitChar_plain _ e).2.1
      · rw [← he]; exact (digitChar_plain _ e).2.2.1
      · intro c hc
        obtain ⟨k, -, rfl⟩ := List.mem_map.mp hc
        obtain ⟨e, he⟩ := dec k
        rw [← he]; exact (digitChar_plain _ e).1
  · refine ⟨_, _, rfl, by decide, by decide, ?_⟩
    intro c hc
    simp only [List.mem_cons, List.mem_map] at hc
    rcases hc with rfl | rfl | ⟨k, -, rfl⟩
    · decide
    · decide
    · exact (digitChar_plain _ _).1

/-- The reader of numbers gives the number a text writes. -/
theorem readNumber_of_text {t : List Char} {n : Nat} (h : NumberText t n) :
    readNumber t = some n := by
  rcases h with ⟨ds, hne, rfl, rfl⟩ | ⟨ds, hne, rfl, rfl⟩
  · have key := readDigits_map 10 (fun d : Fin 10 => digitChar false d.val) Fin.val
      digitValue_decimal ds 0
    have hx : ∀ d ∈ ds.map (fun d : Fin 10 => digitChar false d.val), d ≠ 'x' := by
      intro c hc
      obtain ⟨k, -, rfl⟩ := List.mem_map.mp hc
      exact (digitChar_plain false ⟨k.val, by omega⟩).2.2.2
    unfold readNumber
    split
    · next e => exact absurd (List.map_eq_nil_iff.mp e) hne
    · next e => exact absurd rfl (hx 'x' (by simp [e]))
    · next e => exact absurd rfl (hx 'x' (by simp [e]))
    · exact key
  · cases ds with
    | nil => exact absurd rfl hne
    | cons d ds =>
      exact readDigits_map 16 (fun d : Bool × Fin 16 => digitChar d.1 d.2.val) (fun d => d.2.val)
        (fun d => digitValue_hexadecimal d.1 d.2) (d :: ds) 0

/-! ### The parts of a line -/

/-- Text that neither begins nor ends with white space is trimmed already. -/
theorem trimLeft_of_head {c : Char} {u : List Char} (h : isBlankChar c = false) :
    trimLeft (c :: u) = c :: u := by simp [trimLeft, h]

theorem trimBoth_of_ends {c d : Char} {u v : List Char} (e : c :: u = v ++ [d])
    (hc : isBlankChar c = false) (hd : isBlankChar d = false) : trimBoth (c :: u) = c :: u := by
  rw [trimBoth, trimLeft_of_head hc, e, List.reverse_append, List.reverse_singleton,
    List.singleton_append, trimLeft_of_head hd]
  simp

/-- Text without white space is trimmed already. -/
theorem trimBoth_of_plain {t : List Char} (h : ∀ c ∈ t, isBlankChar c = false) :
    trimBoth t = t := by
  cases t with
  | nil => rfl
  | cons c u =>
    obtain ⟨v, d, e⟩ := List.eq_nil_or_concat (c :: u) |>.resolve_left (List.cons_ne_nil _ _)
    rw [List.concat_eq_append] at e
    exact trimBoth_of_ends e (h c (by simp)) (h d (by rw [e]; simp))

/-- White space before a text is dropped. -/
theorem trimBoth_space (t : List Char) : trimBoth (' ' :: t) = trimBoth t := by
  simp [trimBoth, trimLeft, isBlankChar]

theorem dropComment_append {l : List Char} (h : ∀ c ∈ l, c ≠ ';') (r : List Char) :
    dropComment (l ++ r) = l ++ dropComment r := by
  induction l with
  | nil => rfl
  | cons c l ih =>
    rw [List.cons_append, dropComment, if_neg (h c (by simp)), ih fun d hd => h d (by simp [hd])]
    rfl

theorem firstWord_append {w : List Char} (h : ∀ c ∈ w, isBlankChar c = false) (r : List Char) :
    firstWord (w ++ r) = w ++ firstWord r := by
  induction w with
  | nil => rfl
  | cons c w ih =>
    rw [List.cons_append, firstWord, h c (by simp), ih fun d hd => h d (by simp [hd])]
    simp

theorem afterWord_append {w : List Char} (h : ∀ c ∈ w, isBlankChar c = false) (r : List Char) :
    afterWord (w ++ r) = afterWord r := by
  induction w with
  | nil => rfl
  | cons c w ih =>
    rw [List.cons_append, afterWord, h c (by simp), ih fun d hd => h d (by simp [hd])]
    simp

theorem splitCommas_plain {t : List Char} (h : ∀ c ∈ t, c ≠ ',') : splitCommas t = [t] := by
  induction t with
  | nil => rfl
  | cons c t ih =>
    rw [splitCommas, if_neg (h c (by simp)), ih fun d hd => h d (by simp [hd])]

theorem splitCommas_append {t : List Char} (h : ∀ c ∈ t, c ≠ ',') (r : List Char) :
    splitCommas (t ++ ',' :: r) = t :: splitCommas r := by
  induction t with
  | nil => simp [splitCommas]
  | cons c t ih =>
    rw [List.cons_append, splitCommas, if_neg (h c (by simp)), ih fun d hd => h d (by simp [hd])]

/-! ### Operands -/

/-- A number below the bound, with at most one space before it. -/
theorem readBelow_of_text {t : List Char} {n bound : Nat} (h : NumberText t n) (hn : n < bound) :
    readBelow bound t = some n ∧ readBelow bound (' ' :: t) = some n := by
  obtain ⟨-, -, -, -, -, hp⟩ := h.chars
  have e : readBelow bound t = some n := by
    rw [readBelow, trimBoth_of_plain fun c hc => (hp c hc).1, readNumber_of_text h]
    simp [hn]
  exact ⟨e, by rw [← e, readBelow, readBelow, trimBoth_space]⟩

/-- Texts that write numbers, one by one. -/
abbrev NumberTexts (ts : List (List Char)) (ns : List Nat) : Prop := List.Forall₂ NumberText ts ns

/-- Numbers below a bound, separated by commas, are read in their order. -/
theorem readAll_commaText {bound : Nat} {ts : List (List Char)} {ns : List Nat}
    (h : NumberTexts ts ns) (hn : ∀ n ∈ ns, n < bound) (ht : ts ≠ []) :
    readAll (readBelow bound) (splitCommas (commaText ts)) = some ns ∧
      readAll (readBelow bound) (splitCommas (' ' :: commaText ts)) = some ns := by
  induction h with
  | nil => exact absurd rfl ht
  | @cons t n ts ns h rest ih =>
    obtain ⟨-, -, -, -, -, hp⟩ := h.chars
    have comma : ∀ c ∈ t, c ≠ ',' := fun c hc => (hp c hc).2.1
    have comma' : ∀ c ∈ ' ' :: t, c ≠ ',' := by
      intro c hc
      rcases List.mem_cons.mp hc with rfl | hc
      · decide
      · exact comma c hc
    obtain ⟨e1, e2⟩ := readBelow_of_text h (hn n (by simp))
    cases rest with
    | nil =>
      simp only [commaText]
      rw [splitCommas_plain comma, splitCommas_plain comma']
      simp only [readAll, e1, e2, and_self]
    | @cons u m us ms hu rest =>
      obtain ⟨-, i2⟩ := ih (fun k hk => hn k (by simp [hk])) (List.cons_ne_nil _ _)
      simp only [commaText]
      rw [splitCommas_append comma, ← List.cons_append, splitCommas_append comma']
      simp only [readAll, e1, e2, i2, and_self]

/-- Every character of such operands is plain, a comma or a space. -/
theorem commaText_chars {ts : List (List Char)} {ns : List Nat} (h : NumberTexts ts ns) :
    ∀ c ∈ commaText ts, c ≠ ';' := by
  induction h with
  | nil => simp [commaText]
  | @cons t n ts ns h rest ih =>
    obtain ⟨-, -, -, -, -, hp⟩ := h.chars
    cases rest with
    | nil => exact fun c hc => (hp c hc).2.2
    | cons hu rest =>
      intro c hc
      simp only [commaText, List.mem_append, List.mem_cons] at hc
      rcases hc with hc | rfl | rfl | hc
      · exact (hp c hc).2.2
      · decide
      · decide
      · exact ih c hc

/-- Such operands neither begin nor end with white space. -/
theorem commaText_ends {ts : List (List Char)} {ns : List Nat} (h : NumberTexts ts ns)
    (ht : ts ≠ []) :
    ∃ c u v d, commaText ts = c :: u ∧ commaText ts = v ++ [d] ∧ isBlankChar c = false ∧
      isBlankChar d = false ∧ c ≠ 'g' := by
  induction h with
  | nil => exact absurd rfl ht
  | @cons t n ts ns h rest ih =>
    obtain ⟨c, u, rfl, -, hg, hp⟩ := h.chars
    cases rest with
    | nil =>
      obtain ⟨v, d, e⟩ := List.eq_nil_or_concat (c :: u) |>.resolve_left (List.cons_ne_nil _ _)
      rw [List.concat_eq_append] at e
      exact ⟨c, u, v, d, rfl, e, (hp c (by simp)).1, (hp d (by rw [e]; simp)).1, hg⟩
    | @cons w m ws ms hu rest =>
      obtain ⟨-, -, v, d, -, e, -, hd, -⟩ := ih (List.cons_ne_nil _ _)
      refine ⟨c, u ++ ',' :: ' ' :: commaText (w :: ws), c :: u ++ ',' :: ' ' :: v, d, rfl, ?_,
        (hp c (by simp)).1, hd, hg⟩
      simp only [commaText, e, List.append_assoc, List.cons_append]

/-- A text that writes an index is not empty and holds plain characters only. -/
theorem IndexText.chars {t : List Char} {idx : Int} (h : IndexText t idx) :
    t ≠ [] ∧ ∀ c ∈ t, Plain c := by
  rcases h with ⟨-, h⟩ | ⟨-, u, rfl, h⟩ <;> obtain ⟨c, v, rfl, -, -, hp⟩ := h.chars
  · exact ⟨List.cons_ne_nil _ _, hp⟩
  · refine ⟨List.cons_ne_nil _ _, fun d hd => ?_⟩
    rcases List.mem_cons.mp hd with rfl | hd
    · decide
    · exact hp d hd

/-- The reader of indices gives the index a text writes. -/
theorem readIndex_of_text {t : List Char} {idx : Int} (h : IndexText t idx)
    (hi : indexEncodable idx = true) : readIndex t = some idx := by
  have signed : readSigned t = some idx := by
    rcases h with ⟨h0, h⟩ | ⟨h0, u, rfl, h⟩
    · obtain ⟨c, u, rfl, hc, -, -⟩ := h.chars
      unfold readSigned
      split
      · next e => exact absurd (List.cons.inj e).1 hc
      · rw [readNumber_of_text h]; simp [Int.toNat_of_nonneg h0]
    · rw [readSigned, readNumber_of_text h]
      simp only [Option.map_some, Option.some.injEq]; omega
  rw [readIndex, trimBoth_of_plain fun c hc => (h.chars.2 c hc).1, signed]
  simp [hi]

/-- A line of a word and an operand text is read as the command of the two. -/
theorem assembles_of_read {w : List Char} {rest line : List Char} {i : Instr}
    {c d : Char} {u v : List Char}
    (hline : line = w ++ ' ' :: rest) (hw : w ≠ []) (hwp : ∀ c ∈ w, Plain c)
    (hrest : ∀ c ∈ rest, c ≠ ';') (hc : rest = c :: u) (hd : rest = v ++ [d])
    (bc : isBlankChar c = false) (bd : isBlankChar d = false)
    (hr : readCommand w rest = some i) :
    Assembles line i (encode i).1 (encode i).2 := by
  have hl : ∀ c ∈ line, c ≠ ';' := by
    intro c hc; subst hline
    simp only [List.mem_append, List.mem_cons] at hc
    rcases hc with h | rfl | h
    · exact (hwp c h).2.2
    · decide
    · exact hrest c h
  have htrim : trimBoth line = line := by
    subst hline
    cases w with
    | nil => exact absurd rfl hw
    | cons a w =>
      exact trimBoth_of_ends (c := a) (d := d) (v := a :: w ++ ' ' :: v)
        (by rw [hd]; simp) (hwp a (by simp)).1 bd
  have hrt : trimBoth rest = rest := by
    have : c :: u = v ++ [d] := hc.symm.trans hd
    rw [hc]; exact trimBoth_of_ends this bc bd
  have hfirst : firstWord line = w := by
    rw [hline, firstWord_append fun c hc => (hwp c hc).1]; simp [firstWord, isBlankChar]
  have hafter : trimBoth (afterWord line) = rest := by
    rw [hline, afterWord_append fun c hc => (hwp c hc).1]
    simp only [afterWord, isBlankChar, beq_self_eq_true, Bool.true_or, if_true]
    rw [trimBoth_space, hrt]
  have main : ∀ text, dropComment text = line → assembleLine text = .command i := by
    intro text ht
    rw [assembleLine, ht, htrim]
    cases line with
    | nil => cases w <;> simp at hline
    | cons a l => simp only [hfirst, hafter, hr, asmOf]
  have both : ∀ text, dropComment text = line →
      assembleLine text = .command i ∧ assembleWords text = some (encode i) := fun text ht =>
    ⟨main text ht, by rw [assembleWords, main text ht]⟩
  have plain : dropComment line = line := by
    have := dropComment_append hl []
    simpa [dropComment] using this
  refine ⟨(both _ plain).1, (both _ plain).2, fun comment => both _ ?_⟩
  rw [dropComment_append hl]; simp [dropComment]

end Sys2Proof.Machine
end

