-- ==== Sys2Proof/Laws/Bits.lean ====
section
/-! SUPPORT. The views of a glyph: bits, row bytes, pixels and codes, each with what reading it back
gives. -/

namespace Sys2Proof.Machine

@[simp] theorem getLsbD_ofBits (n : Nat) (f : Nat → Bool) (k : Nat) :
    (ofBits n f).getLsbD k = (decide (k < n) && f k) := by
  induction n with
  | zero => simp [ofBits]
  | succ n ih =>
    rw [ofBits, BitVec.getLsbD_cons, ih]
    by_cases h : k = n
    · subst h; simp
    · have : k < n + 1 ↔ k < n := by omega
      simp [h, this]

theorem getLsbD_row (g : Glyph) (i j : Nat) :
    (row g i).getLsbD j = (decide (j < 8) && g.getLsbD (8 * i + j)) := by
  rw [row, BitVec.getLsbD_extractLsb']

/-- Pixel `(i, j)` is bit `8i + j` of the packed glyph (10_state.md R12). -/
theorem px_eq_getLsbD (g : Glyph) (i : Nat) {j : Nat} (hj : j < 8) :
    px g i j = g.getLsbD (8 * i + j) := by
  rw [px, getLsbD_row, decide_eq_true hj, Bool.true_and]

theorem getLsbD_eq_px (g : Glyph) (k : Nat) : g.getLsbD k = px g (k / 8) (k % 8) := by
  rw [px_eq_getLsbD g _ (Nat.mod_lt _ (by omega)), Nat.div_add_mod]

/-- Two row bytes with the same eight bits are the same byte. -/
theorem byte_ext {a b : Byte} (h : ∀ j < 8, a.getLsbD j = b.getLsbD j) : a = b :=
  BitVec.eq_of_getLsbD_eq fun j hj => h j hj

/-- Two glyphs with the same eight rows are the same glyph. -/
theorem glyph_ext_rows {g h : Glyph} (e : ∀ i < 8, row g i = row h i) : g = h := by
  apply BitVec.eq_of_getLsbD_eq
  intro k hk
  rw [getLsbD_eq_px, getLsbD_eq_px, px, px, e _ (by omega)]

/-- Two glyphs with the same 64 pixels are the same glyph. -/
theorem glyph_ext_pixels {g h : Glyph} (e : ∀ i < 8, ∀ j < 8, px g i j = px h i j) : g = h :=
  glyph_ext_rows fun i hi => byte_ext fun j hj => e i hi j hj

theorem getLsbD_ofRows (f : Nat → Byte) {k : Nat} (hk : k < 64) :
    (ofRows f).getLsbD k = (f (k / 8)).getLsbD (k % 8) := by
  obtain ⟨i, j, hi, hj, rfl⟩ : ∃ i j, i < 8 ∧ j < 8 ∧ k = 8 * i + j :=
    ⟨k / 8, k % 8, by omega, by omega, by omega⟩
  have hd : (8 * i + j) / 8 = i := by omega
  have hm : (8 * i + j) % 8 = j := by omega
  rw [hd, hm]
  interval_cases i <;> interval_cases j <;> simp only [ofRows, BitVec.getLsbD_append] <;> rfl

/-- Row `i` of `glyph(f 0, ..., f 7)` is `f i`. -/
@[simp] theorem row_ofRows (f : Nat → Byte) {i : Nat} (hi : i < 8) : row (ofRows f) i = f i := by
  apply byte_ext
  intro j hj
  have hd : (8 * i + j) / 8 = i := by omega
  have hm : (8 * i + j) % 8 = j := by omega
  rw [getLsbD_row, decide_eq_true hj, Bool.true_and, getLsbD_ofRows f (by omega), hd, hm]

@[simp] theorem ofRows_row (g : Glyph) : ofRows (row g) = g :=
  glyph_ext_rows fun _ hi => row_ofRows _ hi

theorem ofRows_congr {f g : Nat → Byte} (h : ∀ i < 8, f i = g i) : ofRows f = ofRows g :=
  glyph_ext_rows fun i hi => by simp [hi, h i hi]

@[simp] theorem getLsbD_ofColumns (f : Nat → Bool) (j : Nat) :
    (ofColumns f).getLsbD j = (decide (j < 8) && f j) := getLsbD_ofBits 8 f j

theorem px_ofRows (f : Nat → Byte) {i : Nat} (hi : i < 8) (j : Nat) :
    px (ofRows f) i j = (f i).getLsbD j := by rw [px, row_ofRows f hi]

/-- Pixel `(i, j)` of the glyph made of the pixels `f` is `f i j`. -/
@[simp] theorem px_ofPixels (f : Nat → Nat → Bool) {i j : Nat} (hi : i < 8) (hj : j < 8) :
    px (ofPixels f) i j = f i j := by
  rw [ofPixels, px_ofRows _ hi, getLsbD_ofColumns, decide_eq_true hj, Bool.true_and]

@[simp] theorem ofPixels_px (g : Glyph) : ofPixels (px g) = g :=
  glyph_ext_pixels fun _ hi _ hj => px_ofPixels _ hi hj

theorem getLsbD_nibble (v : BitVec 64) (n k : Nat) :
    (nibble v n).getLsbD k = (decide (k < 4) && v.getLsbD (4 * n + k)) := by
  rw [nibble, BitVec.getLsbD_extractLsb']

/-- Code number `n` of the value made of the codes `f` is `f n`. -/
@[simp] theorem nibble_ofNibbles (f : Nat → Nibble) {n : Nat} (hn : n < 16) :
    nibble (ofNibbles f) n = f n := by
  apply BitVec.eq_of_getLsbD_eq
  intro k hk
  have hd : (4 * n + k) / 4 = n := by omega
  have hm : (4 * n + k) % 4 = k := by omega
  rw [getLsbD_nibble, decide_eq_true hk, Bool.true_and, ofNibbles, getLsbD_ofBits,
    decide_eq_true (show 4 * n + k < 64 by omega), Bool.true_and, hd, hm]

/-- Two values with the same sixteen codes are the same value. -/
theorem codes_ext {v w : BitVec 64} (h : ∀ n < 16, nibble v n = nibble w n) : v = w := by
  apply BitVec.eq_of_getLsbD_eq
  intro k hk
  have := congrArg (fun b => b.getLsbD (k % 4)) (h (k / 4) (by omega))
  simpa only [getLsbD_nibble, decide_eq_true (Nat.mod_lt k (show 4 > 0 by omega)), Bool.true_and,
    Nat.div_add_mod] using this

/-- A quadrant code never exceeds 15 (43_preview.md R96). -/
theorem quadrantCode_lt (g : Glyph) (cy cx : Nat) : quadrantCode g cy cx < 16 := by
  unfold quadrantCode weighted; split <;> split <;> split <;> split <;> omega

/-- The bit test of GRID reads the pixel (43_preview.md R90). -/
theorem toBitGrid_eq_px (g : Glyph) (i j : Nat) : toBitGrid g i j = px g i j := by
  have h : ∀ x : BitVec 8, (x &&& 1#8 == 1#8) = x.getLsbD 0 := by decide
  simp [toBitGrid, px, h]

end Sys2Proof.Machine
end

