-- ==== Sys2Proof/Laws/Decode.lean ====
section
/-! SUPPORT. The fields of a word of format C and of a descriptor, read back. -/

namespace Sys2Proof

theorem getLsbD_formatC (op : BitVec 4) (r c : BitVec 3) (idx : BitVec 16) (k : Nat) :
    (formatC op r c idx).getLsbD k =
      if k < 16 then idx.getLsbD k else if k < 19 then c.getLsbD (k - 16)
      else if k < 22 then r.getLsbD (k - 19) else if k < 28 then false
      else op.getLsbD (k - 28) := by
  simp only [formatC, BitVec.getLsbD_append, BitVec.getLsbD_zero, Nat.sub_sub]
  split_ifs <;> first | rfl | omega

@[simp] theorem fieldOp_formatC (op : BitVec 4) (r c : BitVec 3) (idx : BitVec 16) :
    fieldOp (formatC op r c idx) = op := by
  apply BitVec.eq_of_getLsbD_eq
  intro k hk
  rw [fieldOp, BitVec.getLsbD_extractLsb', getLsbD_formatC, decide_eq_true hk, Bool.true_and]
  split_ifs <;> first | omega | (congr 1; omega)

@[simp] theorem fieldZ_formatC (op : BitVec 4) (r c : BitVec 3) (idx : BitVec 16) :
    fieldZ (formatC op r c idx) = 0#6 := by
  apply BitVec.eq_of_getLsbD_eq
  intro k hk
  rw [fieldZ, BitVec.getLsbD_extractLsb', getLsbD_formatC, decide_eq_true hk, Bool.true_and,
    BitVec.getLsbD_zero]
  split_ifs <;> first | omega | rfl

@[simp] theorem fieldRow_formatC (op : BitVec 4) (r c : BitVec 3) (idx : BitVec 16) :
    fieldRow (formatC op r c idx) = r := by
  apply BitVec.eq_of_getLsbD_eq
  intro k hk
  rw [fieldRow, BitVec.getLsbD_extractLsb', getLsbD_formatC, decide_eq_true hk, Bool.true_and]
  split_ifs <;> first | omega | (congr 1; omega)

@[simp] theorem fieldCol_formatC (op : BitVec 4) (r c : BitVec 3) (idx : BitVec 16) :
    fieldCol (formatC op r c idx) = c := by
  apply BitVec.eq_of_getLsbD_eq
  intro k hk
  rw [fieldCol, BitVec.getLsbD_extractLsb', getLsbD_formatC, decide_eq_true hk, Bool.true_and]
  split_ifs <;> first | omega | (congr 1; omega)

@[simp] theorem fieldIdx_formatC (op : BitVec 4) (r c : BitVec 3) (idx : BitVec 16) :
    fieldIdx (formatC op r c idx) = idx := by
  apply BitVec.eq_of_getLsbD_eq
  intro k hk
  rw [fieldIdx, BitVec.getLsbD_extractLsb', getLsbD_formatC, decide_eq_true hk, Bool.true_and]
  split_ifs <;> first | omega | (congr 1; omega)

/-- A word whose field `Z` is zero is the word of its own fields (30_encoding.md R46). -/
theorem formatC_of_fields {cmd : CmdWord} (hz : fieldZ cmd = 0#6) :
    formatC (fieldOp cmd) (fieldRow cmd) (fieldCol cmd) (fieldIdx cmd) = cmd := by
  apply BitVec.eq_of_getLsbD_eq
  intro k hk
  rw [getLsbD_formatC]
  simp only [fieldOp, fieldRow, fieldCol, fieldIdx, BitVec.getLsbD_extractLsb']
  split_ifs with h1 h2 h3 h4
  · simp [h1]
  · rw [decide_eq_true (by omega), Bool.true_and]; congr 1; omega
  · rw [decide_eq_true (by omega), Bool.true_and]; congr 1; omega
  · have h := congrArg (fun v => v.getLsbD (k - 22)) hz
    simp only [fieldZ, BitVec.getLsbD_extractLsb', BitVec.getLsbD_zero] at h
    rw [decide_eq_true (by omega), Bool.true_and] at h
    rw [← h]; congr 1; omega
  · rw [decide_eq_true (by omega), Bool.true_and]; congr 1; omega

theorem getLsbD_descriptor (src : ImageStatus) (w h : BitVec 16) (k : Nat) :
    (descriptor src w h).getLsbD k =
      if k < 2 then (sourceBits src).getLsbD k else if k < 16 then false
      else if k < 32 then w.getLsbD (k - 16) else if k < 48 then h.getLsbD (k - 32)
      else false := by
  simp only [descriptor, BitVec.getLsbD_append, BitVec.getLsbD_zero, Nat.sub_sub]
  split_ifs <;> first | rfl | omega

@[simp] theorem fieldSrc_descriptor (src : ImageStatus) (w h : BitVec 16) :
    fieldSrc (descriptor src w h) = sourceBits src := by
  apply BitVec.eq_of_getLsbD_eq
  intro k hk
  rw [fieldSrc, BitVec.getLsbD_extractLsb', getLsbD_descriptor, decide_eq_true hk, Bool.true_and]
  split_ifs <;> first | omega | (congr 1; omega)

@[simp] theorem fieldW_descriptor (src : ImageStatus) (w h : BitVec 16) :
    fieldW (descriptor src w h) = w := by
  apply BitVec.eq_of_getLsbD_eq
  intro k hk
  rw [fieldW, BitVec.getLsbD_extractLsb', getLsbD_descriptor, decide_eq_true hk, Bool.true_and]
  split_ifs <;> first | omega | (congr 1; omega)

@[simp] theorem fieldH_descriptor (src : ImageStatus) (w h : BitVec 16) :
    fieldH (descriptor src w h) = h := by
  apply BitVec.eq_of_getLsbD_eq
  intro k hk
  rw [fieldH, BitVec.getLsbD_extractLsb', getLsbD_descriptor, decide_eq_true hk, Bool.true_and]
  split_ifs <;> first | omega | (congr 1; omega)

@[simp] theorem sourceOf_sourceBits (src : ImageStatus) : sourceOf (sourceBits src) = some src := by
  cases src <;> rfl

/-- What `sourceOf` answers: the value of `SRC` it came from (30_encoding.md R51). -/
theorem sourceBits_of_sourceOf {v : BitVec 2} {src : ImageStatus} (h : sourceOf v = some src) :
    sourceBits src = v := by
  revert v; cases src <;> decide

end Sys2Proof
end

