-- ==== Sys2Proof/Laws/Memory.lean ====
section
/-! SUPPORT. What each operation on the store can do, said once: what a byte and a glyph read after
it, and that it keeps the canonical form. -/

namespace Sys2Proof.Machine

theorem readByte_forget (m : Memory) (k a : Nat) :
    readByte (forget m k) a = if a = k then unlistedByte else readByte m a := by
  induction m with
  | nil => simp [forget, readByte]
  | cons c m ih =>
    obtain ⟨x, b⟩ := c
    by_cases hx : x = k
    · have : forget ((x, b) :: m) k = forget m k := by simp [forget, hx]
      rw [this, ih]
      by_cases ha : a = k
      · simp [ha]
      · have : ¬ x = a := by omega
        simp [ha, readByte, this]
    · have : forget ((x, b) :: m) k = (x, b) :: forget m k := by simp [forget, hx]
      rw [this]
      by_cases hxa : x = a
      · have : ¬ a = k := by omega
        simp [readByte, hxa, this]
      · simp [readByte, hxa, ih]

theorem mem_forget {m : Memory} {k : Nat} {c : Host.Cell} :
    c ∈ forget m k ↔ c ∈ m ∧ c.1 ≠ k := by simp [forget]

theorem readByte_insertCell {m : Memory} {k : Nat} (v : Byte) (h : ∀ c ∈ m, c.1 ≠ k) (a : Nat) :
    readByte (insertCell m k v) a = if a = k then v else readByte m a := by
  induction m with
  | nil => simp [insertCell, readByte, eq_comm]
  | cons c m ih =>
    obtain ⟨x, b⟩ := c
    have hx : x ≠ k := h (x, b) (by simp)
    have ih := ih fun c hc => h c (by simp [hc])
    unfold insertCell
    split
    · by_cases ha : a = k
      · simp [readByte, ha]
      · have : ¬ k = a := by omega
        simp [readByte, ha, this]
    · by_cases hxa : x = a
      · have : ¬ a = k := by omega
        simp [readByte, hxa, this]
      · simp [readByte, hxa, ih]

/-- A byte read after a byte is written: the byte written there, the old byte elsewhere. -/
theorem readByte_writeByte (m : Memory) (k : Nat) (v : Byte) (a : Nat) :
    readByte (writeByte m k v) a = if a = k then v else readByte m a := by
  unfold writeByte
  split
  · next h => rw [readByte_forget, h]
  · rw [readByte_insertCell v fun c hc => (mem_forget.mp hc).2, readByte_forget]
    by_cases ha : a = k <;> simp [ha]

theorem forget_wf {m : Memory} (h : m.wf) (k : Nat) : (forget m k).wf :=
  ⟨h.1.filter _, fun c hc => h.2 c (mem_forget.mp hc).1⟩

theorem mem_insertCell {m : Memory} {k : Nat} {v : Byte} {c : Host.Cell} :
    c ∈ insertCell m k v ↔ c = (k, v) ∨ c ∈ m := by
  induction m with
  | nil => simp [insertCell]
  | cons d m ih =>
    unfold insertCell
    split
    · simp
    · simp only [List.mem_cons, ih]; tauto

theorem insertCell_pairwise {m : Memory} {k : Nat} (v : Byte)
    (hm : m.Pairwise (fun p q => p.1 < q.1)) (h : ∀ c ∈ m, c.1 ≠ k) :
    (insertCell m k v).Pairwise (fun p q => p.1 < q.1) := by
  induction m with
  | nil => simp [insertCell]
  | cons d m ih =>
    have hd : d.1 ≠ k := h d (by simp)
    rw [List.pairwise_cons] at hm
    unfold insertCell
    split
    · next hlt =>
      refine List.pairwise_cons.mpr ⟨?_, List.pairwise_cons.mpr hm⟩
      intro c hc
      rcases List.mem_cons.mp hc with rfl | hc
      · exact hlt
      · exact lt_trans hlt (hm.1 c hc)
    · next hlt =>
      refine List.pairwise_cons.mpr ⟨?_, ih hm.2 fun c hc => h c (by simp [hc])⟩
      intro c hc
      rcases mem_insertCell.mp hc with rfl | hc
      · show d.1 < k; have : ¬ k < d.1 := hlt; omega
      · exact hm.1 c hc

/-- Writing a byte of the layout keeps the canonical form. -/
theorem writeByte_wf {m : Memory} (h : m.wf) {k : Nat} (hk : k < Config.nBytes) (v : Byte) :
    (writeByte m k v).wf := by
  unfold writeByte
  split
  · exact forget_wf h k
  · next hv =>
    refine ⟨insertCell_pairwise v (forget_wf h k).1 fun c hc => (mem_forget.mp hc).2, ?_⟩
    intro c hc
    rcases mem_insertCell.mp hc with rfl | hc
    · exact ⟨hk, hv⟩
    · exact (forget_wf h k).2 c hc

/-- Outside the store's byte space nothing is listed. -/
theorem readByte_outside {m : Memory} (h : m.wf) {a : Nat} (ha : Config.nBytes ≤ a) :
    readByte m a = unlistedByte := by
  obtain ⟨-, h⟩ := h
  induction m with
  | nil => rfl
  | cons c m ih =>
    have : ¬ c.1 = a := by have := (h c (by simp)).1; omega
    simp only [readByte, this, if_false]
    exact ih fun c hc => h c (by simp [hc])

theorem readByte_of_lt {m : Memory} {a : Nat} (h : ∀ c ∈ m, a < c.1) :
    readByte m a = unlistedByte := by
  induction m with
  | nil => rfl
  | cons c m ih =>
    have : ¬ c.1 = a := by have := h c (by simp); omega
    simp only [readByte, this, if_false]
    exact ih fun c hc => h c (by simp [hc])

/-- Equal stores are equal data: two canonical stores that read the same everywhere are the same
list. -/
theorem Memory.ext_wf {m n : Memory} (hm : m.wf) (hn : n.wf)
    (h : ∀ a, readByte m a = readByte n a) : m = n := by
  induction m generalizing n with
  | nil =>
    cases n with
    | nil => rfl
    | cons d n =>
      have := h d.1
      simp only [readByte, if_true] at this
      exact absurd this.symm (hn.2 d (by simp)).2
  | cons c m ih =>
    cases n with
    | nil =>
      have := h c.1
      simp only [readByte, if_true] at this
      exact absurd this (hm.2 c (by simp)).2
    | cons d n =>
      have pm := List.pairwise_cons.mp hm.1
      have pn := List.pairwise_cons.mp hn.1
      have vm := (hm.2 c (by simp)).2
      have vn := (hn.2 d (by simp)).2
      have key : c.1 = d.1 := by
        rcases lt_trichotomy c.1 d.1 with hlt | he | hlt
        · have e := h c.1
          rw [readByte_of_lt (m := d :: n) fun x hx => ?_] at e
          · simp only [readByte, if_true] at e; exact absurd e vm
          · rcases List.mem_cons.mp hx with rfl | hx
            · exact hlt
            · exact lt_trans hlt (pn.1 x hx)
        · exact he
        · have e := h d.1
          rw [readByte_of_lt (m := c :: m) fun x hx => ?_] at e
          · simp only [readByte, if_true] at e; exact absurd e.symm vn
          · rcases List.mem_cons.mp hx with rfl | hx
            · exact hlt
            · exact lt_trans hlt (pm.1 x hx)
      have value : c.2 = d.2 := by simpa [readByte, key] using h c.1
      have rest : m = n := by
        refine ih ⟨pm.2, fun x hx => hm.2 x (by simp [hx])⟩ ⟨pn.2, fun x hx => hn.2 x (by simp [hx])⟩ ?_
        intro a
        by_cases ha : c.1 = a
        · rw [readByte_of_lt (by intro x hx; have := pm.1 x hx; omega),
            readByte_of_lt (by intro x hx; have := pn.1 x hx; omega)]
        · have e := h a
          simpa only [readByte, ha, ← key, if_false] using e
      rw [rest, Prod.ext key value]

/-- Row `r` of `RS[i]` is the byte at address `8i + r` (20_memory.md R32). -/
@[simp] theorem row_readGlyph (m : Memory) (i : Nat) {r : Nat} (hr : r < 8) :
    row (readGlyph m i) r = readByte m (rowAddress i r) := row_ofRows _ hr

/-- Byte address `a` holds row `a mod 8` of glyph `a div 8` (20_memory.md R32). -/
theorem readByte_eq_row (m : Memory) (a : Nat) :
    readByte m a = row (readGlyph m (a / 8)) (a % 8) := by
  rw [row_readGlyph m _ (Nat.mod_lt _ (by omega))]
  simp only [rowAddress, Config.nRow, Nat.div_add_mod]

theorem foldl_writeByte (i : Nat) (g : Glyph) (m : Memory) (n a : Nat) :
    readByte ((List.range n).foldl (fun m r => writeByte m (rowAddress i r) (row g r)) m) a
      = if 8 * i ≤ a ∧ a < 8 * i + n then row g (a - 8 * i) else readByte m a := by
  induction n with
  | zero => simp
  | succ n ih =>
    rw [List.range_succ, List.foldl_append]
    simp only [List.foldl_cons, List.foldl_nil]
    rw [readByte_writeByte, ih]
    simp only [rowAddress, Config.nRow]
    by_cases h1 : a = 8 * i + n
    · have h2 : a - 8 * i = n := by omega
      have h3 : 8 * i ≤ a ∧ a < 8 * i + (n + 1) := by omega
      simp [h1]
    · by_cases h2 : 8 * i ≤ a ∧ a < 8 * i + n
      · have h3 : 8 * i ≤ a ∧ a < 8 * i + (n + 1) := by omega
        simp [h1, h2, h3]
      · have h3 : ¬ (8 * i ≤ a ∧ a < 8 * i + (n + 1)) := by omega
        simp [h1, h2, h3]

/-- A byte read after a glyph is written: one of its rows at `8i .. 8i+7`, the old byte
elsewhere. -/
theorem readByte_writeGlyph (m : Memory) (i : Nat) (g : Glyph) (a : Nat) :
    readByte (writeGlyph m i g) a = if a / 8 = i then row g (a % 8) else readByte m a := by
  rw [writeGlyph, Config.nRow, foldl_writeByte]
  by_cases h : a / 8 = i
  · have h1 : 8 * i ≤ a ∧ a < 8 * i + 8 := by omega
    have h2 : a - 8 * i = a % 8 := by omega
    simp [h, h1, h2]
  · have h1 : ¬ (8 * i ≤ a ∧ a < 8 * i + 8) := by omega
    simp [h, h1]

/-- The store behaves as independent cells (41_container.md R74). -/
theorem readGlyph_writeGlyph (m : Memory) (i : Nat) (g : Glyph) (k : Nat) :
    readGlyph (writeGlyph m i g) k = if k = i then g else readGlyph m k := by
  have e : ∀ r < 8, (rowAddress k r) / 8 = k ∧ (rowAddress k r) % 8 = r := by
    intro r hr; simp only [rowAddress, Config.nRow]; omega
  apply glyph_ext_rows
  intro r hr
  rw [row_readGlyph _ _ hr, readByte_writeGlyph, (e r hr).1, (e r hr).2]
  by_cases h : k = i
  · simp [h]
  · simp [h, hr]

theorem foldl_writeByte_wf {m : Memory} (h : m.wf) {i : Nat} (hi : i < Config.nGlyph) (g : Glyph)
    {n : Nat} (hn : n ≤ 8) :
    ((List.range n).foldl (fun m r => writeByte m (rowAddress i r) (row g r)) m).wf := by
  induction n with
  | zero => simpa using h
  | succ n ih =>
    rw [List.range_succ, List.foldl_append]
    refine writeByte_wf (ih (by omega)) ?_ _
    simp only [rowAddress, Config.nRow, Config.nBytes, Config.nGlyph] at *; omega

/-- Writing a glyph at a valid index keeps the canonical form. -/
theorem writeGlyph_wf {m : Memory} (h : m.wf) {i : Nat} (hi : i < Config.nGlyph) (g : Glyph) :
    (writeGlyph m i g).wf := foldl_writeByte_wf h hi g (Nat.le_refl 8)

/-- A store made of bytes has the canonical form. -/
theorem ofBytes_wf (f : Nat → Byte) : (ofBytes f).wf := by
  constructor
  · rw [ofBytes, List.pairwise_map]
    exact (List.pairwise_lt_range).filter _
  · intro p hp
    simp only [ofBytes, List.mem_map, List.mem_filter, List.mem_range, bne_iff_ne] at hp
    obtain ⟨a, ⟨ha, hf⟩, rfl⟩ := hp
    exact ⟨ha, hf⟩

theorem readByte_map_filter (f : Nat → Byte) (l : List Nat) (a : Nat) :
    readByte ((l.filter fun x => f x != unlistedByte).map fun x => (x, f x)) a
      = if a ∈ l then f a else unlistedByte := by
  induction l with
  | nil => simp [readByte]
  | cons x l ih =>
    by_cases hx : f x = unlistedByte
    · have : ((x :: l).filter fun x => f x != unlistedByte) = l.filter fun x => f x != unlistedByte := by
        simp [hx]
      rw [this, ih]
      by_cases ha : a = x
      · subst ha; simp [hx]
      · simp [ha]
    · have : ((x :: l).filter fun x => f x != unlistedByte)
          = x :: l.filter fun x => f x != unlistedByte := by simp [hx]
      rw [this, List.map_cons]
      by_cases ha : x = a
      · subst ha; simp [readByte]
      · have : ¬ a = x := fun h => ha h.symm
        simp [readByte, ha, ih, this]

/-- A byte of a store made of bytes. -/
theorem readByte_ofBytes (f : Nat → Byte) (a : Nat) :
    readByte (ofBytes f) a = if a < Config.nBytes then f a else unlistedByte := by
  rw [ofBytes, readByte_map_filter]; simp only [List.mem_range]

/-- A glyph of a store made of rows. -/
theorem readGlyph_ofGlyphRows (f : Nat → Nat → Byte) {n : Nat} (hn : n < Config.nGlyph) :
    readGlyph (ofGlyphRows f) n = ofRows (f n) := by
  apply glyph_ext_rows
  intro r hr
  have h1 : rowAddress n r < Config.nBytes := by
    simp only [rowAddress, Config.nRow, Config.nBytes, Config.nGlyph] at *; omega
  have h2 : rowAddress n r / Config.nRow = n ∧ rowAddress n r % Config.nRow = r := by
    simp only [rowAddress, Config.nRow]; omega
  rw [row_readGlyph _ _ hr, ofGlyphRows, readByte_ofBytes, if_pos h1, h2.1, h2.2, row_ofRows _ hr]

/-- The bytes of a list written upwards from an address: read back there, unchanged elsewhere
(20_memory.md R33). -/
theorem readByte_writeBytes (m : Memory) (a : Nat) (v : List Byte) (k : Nat) :
    readByte (writeBytes m a v) k
      = if a ≤ k ∧ k < a + v.length then v.getD (k - a) 0#8 else readByte m k := by
  induction v generalizing m a with
  | nil =>
    simp [writeBytes]
  | cons b v ih =>
    rw [writeBytes, ih, readByte_writeByte]
    by_cases h1 : a + 1 ≤ k ∧ k < a + 1 + v.length
    · have h2 : a ≤ k ∧ k < a + (v.length + 1) := by omega
      obtain ⟨d, hd⟩ : ∃ d, k - a = d + 1 := ⟨k - a - 1, by omega⟩
      have hd' : k - (a + 1) = d := by omega
      rw [if_pos h1, hd', List.length_cons, if_pos h2, hd, List.getD_cons_succ]
    · rw [if_neg h1, List.length_cons]
      by_cases h3 : k = a
      · subst h3; simp
      · have h2 : ¬ (a ≤ k ∧ k < a + (v.length + 1)) := by omega
        rw [if_neg h3, if_neg h2]

/-- Writing bytes inside the store keeps the canonical form. -/
theorem writeBytes_wf {m : Memory} (h : m.wf) {a : Nat} {v : List Byte}
    (ha : a + v.length ≤ Config.nBytes) : (writeBytes m a v).wf := by
  induction v generalizing m a with
  | nil => exact h
  | cons b v ih =>
    rw [List.length_cons] at ha
    exact ih (writeByte_wf h (by omega) b) (by omega)

/-- `MemWrite` keeps the canonical form wherever it is defined (20_memory.md R33). -/
theorem memWrite_wf {m n : Memory} (h : m.wf) {a : Nat} {v : List Byte}
    (e : memWrite m a v = some n) : n.wf := by
  unfold memWrite at e
  split at e
  · next hle => cases e; exact writeBytes_wf h hle
  · cases e

/-- The empty store, all bytes at their reset value, has the canonical form. -/
theorem reset_store_wf : State.reset.rs.wf := by decide

end Sys2Proof.Machine
end

