-- ==== Sys2Proof/Laws/State.lean ====
section
/-! SUPPORT. One lemma per field per update of the state, all true by unfolding, so that no later
proof unfolds a record update. -/

namespace Sys2Proof.Machine

@[simp] theorem State.setRs_rs (s : State) (m : Memory) : (s.setRs m).rs = m := rfl
@[simp] theorem State.setRs_gr (s : State) (m : Memory) : (s.setRs m).gr = s.gr := rfl
@[simp] theorem State.setRs_bg (s : State) (m : Memory) : (s.setRs m).bg = s.bg := rfl
@[simp] theorem State.setRs_pv (s : State) (m : Memory) : (s.setRs m).pv = s.pv := rfl
@[simp] theorem State.setRs_err (s : State) (m : Memory) : (s.setRs m).err = s.err := rfl
@[simp] theorem State.setRs_image (s : State) (m : Memory) : (s.setRs m).image = s.image := rfl
@[simp] theorem State.setRs_host (s : State) (m : Memory) : (s.setRs m).host = s.host := rfl

@[simp] theorem State.setGr_rs (s : State) (g : Glyph) : (s.setGr g).rs = s.rs := rfl
@[simp] theorem State.setGr_gr (s : State) (g : Glyph) : (s.setGr g).gr = g := rfl
@[simp] theorem State.setGr_bg (s : State) (g : Glyph) : (s.setGr g).bg = s.bg := rfl
@[simp] theorem State.setGr_pv (s : State) (g : Glyph) : (s.setGr g).pv = s.pv := rfl
@[simp] theorem State.setGr_err (s : State) (g : Glyph) : (s.setGr g).err = s.err := rfl
@[simp] theorem State.setGr_image (s : State) (g : Glyph) : (s.setGr g).image = s.image := rfl
@[simp] theorem State.setGr_host (s : State) (g : Glyph) : (s.setGr g).host = s.host := rfl

@[simp] theorem State.setBg_rs (s : State) (v : BitVec 64) : (s.setBg v).rs = s.rs := rfl
@[simp] theorem State.setBg_gr (s : State) (v : BitVec 64) : (s.setBg v).gr = s.gr := rfl
@[simp] theorem State.setBg_bg (s : State) (v : BitVec 64) : (s.setBg v).bg = v := rfl
@[simp] theorem State.setBg_pv (s : State) (v : BitVec 64) : (s.setBg v).pv = s.pv := rfl
@[simp] theorem State.setBg_err (s : State) (v : BitVec 64) : (s.setBg v).err = s.err := rfl
@[simp] theorem State.setBg_image (s : State) (v : BitVec 64) : (s.setBg v).image = s.image := rfl
@[simp] theorem State.setBg_host (s : State) (v : BitVec 64) : (s.setBg v).host = s.host := rfl

@[simp] theorem State.setPv_rs (s : State) (v : BitVec 64) : (s.setPv v).rs = s.rs := rfl
@[simp] theorem State.setPv_gr (s : State) (v : BitVec 64) : (s.setPv v).gr = s.gr := rfl
@[simp] theorem State.setPv_bg (s : State) (v : BitVec 64) : (s.setPv v).bg = s.bg := rfl
@[simp] theorem State.setPv_pv (s : State) (v : BitVec 64) : (s.setPv v).pv = v := rfl
@[simp] theorem State.setPv_err (s : State) (v : BitVec 64) : (s.setPv v).err = s.err := rfl
@[simp] theorem State.setPv_image (s : State) (v : BitVec 64) : (s.setPv v).image = s.image := rfl
@[simp] theorem State.setPv_host (s : State) (v : BitVec 64) : (s.setPv v).host = s.host := rfl

@[simp] theorem State.setErr_rs (s : State) (c : ErrCode) : (s.setErr c).rs = s.rs := rfl
@[simp] theorem State.setErr_gr (s : State) (c : ErrCode) : (s.setErr c).gr = s.gr := rfl
@[simp] theorem State.setErr_bg (s : State) (c : ErrCode) : (s.setErr c).bg = s.bg := rfl
@[simp] theorem State.setErr_pv (s : State) (c : ErrCode) : (s.setErr c).pv = s.pv := rfl
@[simp] theorem State.setErr_err (s : State) (c : ErrCode) : (s.setErr c).err = c := rfl
@[simp] theorem State.setErr_image (s : State) (c : ErrCode) : (s.setErr c).image = s.image := rfl
@[simp] theorem State.setErr_host (s : State) (c : ErrCode) : (s.setErr c).host = s.host := rfl

@[simp] theorem State.setImage_rs (s : State) (img : Image) : (s.setImage img).rs = s.rs := rfl
@[simp] theorem State.setImage_gr (s : State) (img : Image) : (s.setImage img).gr = s.gr := rfl
@[simp] theorem State.setImage_bg (s : State) (img : Image) : (s.setImage img).bg = s.bg := rfl
@[simp] theorem State.setImage_pv (s : State) (img : Image) : (s.setImage img).pv = s.pv := rfl
@[simp] theorem State.setImage_err (s : State) (img : Image) : (s.setImage img).err = s.err := rfl
@[simp] theorem State.setImage_image (s : State) (img : Image) : (s.setImage img).image = img := rfl
@[simp] theorem State.setImage_host (s : State) (img : Image) : (s.setImage img).host = s.host := rfl

@[simp] theorem State.setHost_rs (s : State) (h : List HostEvent) : (s.setHost h).rs = s.rs := rfl
@[simp] theorem State.setHost_gr (s : State) (h : List HostEvent) : (s.setHost h).gr = s.gr := rfl
@[simp] theorem State.setHost_bg (s : State) (h : List HostEvent) : (s.setHost h).bg = s.bg := rfl
@[simp] theorem State.setHost_pv (s : State) (h : List HostEvent) : (s.setHost h).pv = s.pv := rfl
@[simp] theorem State.setHost_err (s : State) (h : List HostEvent) : (s.setHost h).err = s.err := rfl
@[simp] theorem State.setHost_image (s : State) (h : List HostEvent) : (s.setHost h).image = s.image := rfl
@[simp] theorem State.setHost_host (s : State) (h : List HostEvent) : (s.setHost h).host = h := rfl

@[simp] theorem done_rs (s : State) : (done s).rs = s.rs := rfl
@[simp] theorem done_gr (s : State) : (done s).gr = s.gr := rfl
@[simp] theorem done_bg (s : State) : (done s).bg = s.bg := rfl
@[simp] theorem done_pv (s : State) : (done s).pv = s.pv := rfl
@[simp] theorem done_err (s : State) : (done s).err = successCode := rfl
@[simp] theorem done_image (s : State) : (done s).image = s.image := rfl
@[simp] theorem done_host (s : State) : (done s).host = s.host := rfl

@[simp] theorem raise_rs (k : ErrKind) (s : State) : (raise k s).rs = s.rs := rfl
@[simp] theorem raise_gr (k : ErrKind) (s : State) : (raise k s).gr = s.gr := rfl
@[simp] theorem raise_bg (k : ErrKind) (s : State) : (raise k s).bg = s.bg := rfl
@[simp] theorem raise_pv (k : ErrKind) (s : State) : (raise k s).pv = s.pv := rfl
@[simp] theorem raise_err (k : ErrKind) (s : State) : (raise k s).err = k.code := rfl
@[simp] theorem raise_image (k : ErrKind) (s : State) : (raise k s).image = s.image := rfl
@[simp] theorem raise_host (k : ErrKind) (s : State) : (raise k s).host = s.host := rfl

@[simp] theorem resetUnit_rs (s : State) : (resetUnit s).rs = [] := rfl
@[simp] theorem resetUnit_gr (s : State) : (resetUnit s).gr = 0#64 := rfl
@[simp] theorem resetUnit_bg (s : State) : (resetUnit s).bg = 0#64 := rfl
@[simp] theorem resetUnit_pv (s : State) : (resetUnit s).pv = 0#64 := rfl
@[simp] theorem resetUnit_err (s : State) : (resetUnit s).err = 0#4 := rfl
@[simp] theorem resetUnit_image (s : State) : (resetUnit s).image = s.image := rfl
@[simp] theorem resetUnit_host (s : State) : (resetUnit s).host = s.host := rfl

@[simp] theorem presentCommand_rs (cmd : CmdWord) (din : Operand) (s : State) :
    (presentCommand cmd din s).rs = s.rs := rfl
@[simp] theorem presentCommand_gr (cmd : CmdWord) (din : Operand) (s : State) :
    (presentCommand cmd din s).gr = s.gr := rfl
@[simp] theorem presentCommand_bg (cmd : CmdWord) (din : Operand) (s : State) :
    (presentCommand cmd din s).bg = s.bg := rfl
@[simp] theorem presentCommand_pv (cmd : CmdWord) (din : Operand) (s : State) :
    (presentCommand cmd din s).pv = s.pv := rfl
@[simp] theorem presentCommand_err (cmd : CmdWord) (din : Operand) (s : State) :
    (presentCommand cmd din s).err = s.err := rfl
@[simp] theorem presentCommand_image (cmd : CmdWord) (din : Operand) (s : State) :
    (presentCommand cmd din s).image = s.image := rfl
@[simp] theorem presentCommand_host (cmd : CmdWord) (din : Operand) (s : State) :
    (presentCommand cmd din s).host = .issue cmd din :: s.host := rfl

/-- Two states with the same seven fields are the same state. -/
theorem State.ext_fields {s t : State} (h1 : s.rs = t.rs) (h2 : s.gr = t.gr) (h3 : s.bg = t.bg)
    (h4 : s.pv = t.pv) (h5 : s.err = t.err) (h6 : s.image = t.image) (h7 : s.host = t.host) :
    s = t := by
  cases s; cases t; simp_all

end Sys2Proof.Machine
end

