-- ==== Sys2Proof/Laws/Exec.lean ====
section
/-! SUPPORT. One lemma per meaning and per action of the host that says what it answers, so that no
later proof unfolds it. -/

namespace Sys2Proof.Machine

theorem validIndex_iff (idx : Int) : validIndex idx = true ↔ 0 ≤ idx ∧ idx ≤ 255 := by
  simp only [validIndex, Config.nGlyph, decide_eq_true_eq]; omega

/-- A valid index addresses an entry of the store. -/
theorem glyphIndex_lt {idx : Int} (h : validIndex idx = true) : glyphIndex idx < Config.nGlyph := by
  have := (validIndex_iff idx).mp h
  simp only [glyphIndex, Config.nGlyph]; omega

theorem exec_rdat_valid {idx : Int} (h : validIndex idx = true) (s : State) :
    exec (.rdat idx) s = .next (done (s.setGr (readGlyph s.rs (glyphIndex idx)))) := by
  simp only [exec, execRdat, h, if_true]

theorem exec_rdat_invalid {idx : Int} (h : validIndex idx = false) (s : State) :
    exec (.rdat idx) s = .next (raise .indexError s) := by
  simp [exec, execRdat, h]

theorem exec_stat_valid {idx : Int} (h : validIndex idx = true) (s : State) :
    exec (.stat idx) s = .next (done (s.setRs (writeGlyph s.rs (glyphIndex idx) s.gr))) := by
  simp only [exec, execStat, h, if_true]

theorem exec_stat_invalid {idx : Int} (h : validIndex idx = false) (s : State) :
    exec (.stat idx) s = .next (raise .indexError s) := by
  simp [exec, execStat, h]

theorem exec_ldg (v : Glyph) (s : State) : exec (.ldg v) s = .next (done (s.setGr v)) := rfl

theorem exec_inv (s : State) : exec .inv s = .next (done (s.setGr (invertGlyph s.gr))) := rfl

theorem exec_rev (s : State) : exec .rev s = .next (done (s.setGr (reverseGlyph s.gr))) := rfl

theorem exec_tgl (r c : Fin 8) (s : State) :
    exec (.tgl r c) s = .next (done (s.setGr (toggleGlyph r.val c.val s.gr))) := rfl

theorem exec_grid (s : State) : exec .grid s = .next (done (s.setBg (packGrid (toBitGrid s.gr)))) :=
  rfl

theorem exec_prv (s : State) : exec .prv s = .next (done (s.setPv (previewCodes s.gr))) := rfl

theorem exec_import_notFound (w h : BitVec 16) (s : State) :
    exec (.importFont .notFound w h) s = .next (raise .notFoundError s) := rfl

theorem exec_import_undecodable (w h : BitVec 16) (s : State) :
    exec (.importFont .undecodable w h) s = .next (raise .decodeError s) := rfl

theorem rightSize_iff (w h : BitVec 16) : rightSize w h = true ↔ w = 256#16 ∧ h = 64#16 := by
  simp only [rightSize, Config.imgW, Config.imgH, Bool.and_eq_true, beq_iff_eq,
    ← BitVec.toNat_inj, BitVec.toNat_ofNat]

theorem exec_import_decoded {w h : BitVec 16} (e : rightSize w h = true) (s : State) :
    exec (.importFont .decoded w h) s = .next (done (s.setRs (importStore s.image))) := by
  simp only [exec, execImportFont, e, if_true]

theorem exec_import_wrong_size {w h : BitVec 16} (e : rightSize w h = false) (s : State) :
    exec (.importFont .decoded w h) s = .next (raise .imageSizeError s) := by
  simp [exec, execImportFont, e]

/-- The store IMPORT writes holds the image's glyphs (44_import.md R106). -/
theorem readGlyph_importStore (img : Image) {n : Nat} (hn : n < Config.nGlyph) :
    readGlyph (importStore img) n = importGlyph img n := readGlyph_ofGlyphRows _ hn

/-- The store IMPORT writes has the canonical form. -/
theorem importStore_wf (img : Image) : Memory.wf (importStore img) := by
  unfold importStore ofGlyphRows
  exact ofBytes_wf _

/-- Bit `(r, c)` of the new glyph `n` is the pixel test on its image pixel (44_import.md R106). -/
theorem px_importGlyph (img : Image) (n : Nat) {r c : Nat} (hr : r < 8) (hc : c < 8) :
    px (importGlyph img n) r c = black (pixRead img (pixelX n c) (pixelY n r)) := by
  rw [importGlyph, px_ofRows _ hr, importRow, getLsbD_ofColumns, decide_eq_true hc, Bool.true_and,
    importBit]

/-- Everything a command can do: change `GR`, `RS`, `BG` or `PV` and report success, or report one
of the unit's own error kinds and change nothing else. -/
theorem exec_cases {i : Instr} {s t : State} (h : exec i s = .next t) :
    (∃ g, t = done (s.setGr g)) ∨
    (∃ idx, i = .stat idx ∧ validIndex idx = true ∧
      t = done (s.setRs (writeGlyph s.rs (glyphIndex idx) s.gr))) ∨
    (∃ w e, i = .importFont .decoded w e ∧ rightSize w e = true ∧
      t = done (s.setRs (importStore s.image))) ∨
    (i = .grid ∧ t = done (s.setBg (packGrid (toBitGrid s.gr)))) ∨
    (i = .prv ∧ t = done (s.setPv (previewCodes s.gr))) ∨
    (∃ k : ErrKind, k.ofUnit = true ∧ t = raise k s) := by
  have same {a b : State} (e : Host.Outcome.next (φ := Fault) (ρ := Refusal) a = .next b) : b = a := by
    cases e; rfl
  have err {k : ErrKind} (hk : k.ofUnit = true) (ht : t = raise k s) :
      ∃ k : ErrKind, k.ofUnit = true ∧ t = raise k s := ⟨k, hk, ht⟩
  cases i with
  | rdat idx =>
    cases hv : validIndex idx with
    | true => rw [exec_rdat_valid hv] at h; exact .inl ⟨_, same h⟩
    | false => rw [exec_rdat_invalid hv] at h; simp only [err rfl (same h), or_true]
  | stat idx =>
    cases hv : validIndex idx with
    | true => rw [exec_stat_valid hv] at h; exact .inr (.inl ⟨idx, rfl, hv, same h⟩)
    | false => rw [exec_stat_invalid hv] at h; simp only [err rfl (same h), or_true]
  | ldg v => exact .inl ⟨_, same h⟩
  | inv => exact .inl ⟨_, same h⟩
  | rev => exact .inl ⟨_, same h⟩
  | tgl r c => exact .inl ⟨_, same h⟩
  | grid => exact .inr (.inr (.inr (.inl ⟨rfl, same h⟩)))
  | prv => exact .inr (.inr (.inr (.inr (.inl ⟨rfl, same h⟩))))
  | importFont src w e =>
    cases src with
    | notFound => simp only [err rfl (same h), or_true]
    | undecodable => simp only [err rfl (same h), or_true]
    | decoded =>
      cases hr : rightSize w e with
      | true => rw [exec_import_decoded hr] at h; exact .inr (.inr (.inl ⟨w, e, rfl, hr, same h⟩))
      | false => rw [exec_import_wrong_size hr] at h; simp only [err rfl (same h), or_true]

theorem issue_ok {cmd : CmdWord} {din : Operand} {i : Instr} (h : decode cmd din = .ok i) (s : State) :
    issue cmd din s = exec i s := by simp only [issue, h]

theorem issue_error {cmd : CmdWord} {din : Operand} {e : Illegal} (h : decode cmd din = .error e)
    (s : State) : issue cmd din s = .next (raise .illegalCommand s) := by simp only [issue, h]

@[simp] theorem andThen_next {σ τ : Type} (s : σ) (f : σ → Host.Outcome τ Fault Refusal) :
    andThen (.next s) f = f s := rfl

/-- A sequence that answers a next state did so at each part. -/
theorem andThen_eq_next {σ τ : Type} {o : Host.Outcome σ Fault Refusal}
    {f : σ → Host.Outcome τ Fault Refusal} {t : τ} (h : andThen o f = .next t) :
    ∃ s, o = .next s ∧ f s = .next t := by
  cases o with
  | next s => exact ⟨s, rfl, h⟩
  | fault r => cases h
  | refused r => cases h

/-- A command that succeeds lets the sequence go on (30_encoding.md R55). -/
theorem runCommands_of_success {i : Instr} {s t : State} (h : exec i s = .next t)
    (e : t.err = successCode) (rest : List Instr) :
    runCommands (i :: rest) s = runCommands rest t := by
  rw [runCommands, h, andThen_next, portErr, if_pos e]

/-- A command that fails ends the sequence (30_encoding.md R55). -/
theorem runCommands_of_failure {i : Instr} {s t : State} (h : exec i s = .next t)
    (e : t.err ≠ successCode) (rest : List Instr) : runCommands (i :: rest) s = .next t := by
  rw [runCommands, h, andThen_next, portErr, if_neg e]

/-- The host has a result exactly of the state where the sequence ended. -/
theorem callPseudo_of_next {p : Pseudo} {s t : State} (h : runPseudo p s = .next t) :
    callPseudo p s = .next (t, p.result t) := by rw [callPseudo, h, andThen_next]

theorem Pseudo.result_of_success (p : Pseudo) {s : State} (e : s.err = successCode) :
    p.result s = p.reading s := by rw [Pseudo.result, portErr, if_pos e]

theorem Pseudo.result_of_failure (p : Pseudo) {s : State} (e : s.err ≠ successCode) :
    p.result s = .failed s.err := by rw [Pseudo.result, portErr, if_neg e]

end Sys2Proof.Machine
end

