-- ==== Sys2Proof/Laws/PerInstr.lean ====
section
/-! SUPPORT. A statement about every command as syntax, one lemma per constructor: its encoding
matches its own row of the opcode map (30_encoding.md R48). -/

namespace Sys2Proof.Laws.EncodeMatchesRow

/-- The command's word matches the row of the opcode map with its mnemonic. -/
def Statement (i : Instr) : Prop :=
  ∃ r ∈ opcodeMap, r.mnemonic = i.mnemonic ∧ r.hits (encode i).1 = true

theorem word_and_mask (op : BitVec 4) (r c : BitVec 3) (v : BitVec 16) :
    formatC op 0#3 0#3 v &&& 0xFFFF0000#32 = formatC op 0#3 0#3 0#16 ∧
    formatC op r c 0#16 &&& 0xFFC0FFFF#32 = formatC op 0#3 0#3 0#16 := by
  refine ⟨?_, ?_⟩ <;>
  · apply BitVec.eq_of_getLsbD_eq
    intro k hk
    rw [BitVec.getLsbD_and, getLsbD_formatC, getLsbD_formatC]
    interval_cases k <;> simp

theorem rdat (idx : Int) : Statement (.rdat idx) :=
  ⟨_, .head _, rfl, by simp only [OpRow.hits, encode, (word_and_mask _ 0#3 0#3 _).1]; decide⟩

theorem stat (idx : Int) : Statement (.stat idx) :=
  ⟨_, .tail _ (.head _), rfl, by
    simp only [OpRow.hits, encode, (word_and_mask _ 0#3 0#3 _).1]; decide⟩

theorem ldg (v : Glyph) : Statement (.ldg v) :=
  ⟨⟨"LDG", 0xFFFFFFFF#32, 0x30000000#32⟩, by decide, rfl, by simp only [OpRow.hits, encode]; decide⟩

theorem inv : Statement .inv := ⟨⟨"INV", 0xFFFFFFFF#32, 0x40000000#32⟩, by decide, rfl, by decide⟩

theorem rev : Statement .rev := ⟨⟨"REV", 0xFFFFFFFF#32, 0x50000000#32⟩, by decide, rfl, by decide⟩

theorem tgl (row col : Fin 8) : Statement (.tgl row col) :=
  ⟨⟨"TGL", 0xFFC0FFFF#32, 0x60000000#32⟩, by decide, rfl, by
    simp only [OpRow.hits, encode, (word_and_mask _ _ _ 0#16).2]; decide⟩

theorem grid : Statement .grid := ⟨⟨"GRID", 0xFFFFFFFF#32, 0x70000000#32⟩, by decide, rfl, by decide⟩

theorem prv : Statement .prv := ⟨⟨"PRV", 0xFFFFFFFF#32, 0x80000000#32⟩, by decide, rfl, by decide⟩

theorem importFont (src : ImageStatus) (w h : BitVec 16) : Statement (.importFont src w h) :=
  ⟨⟨"IMPORT", 0xFFFFFFFF#32, 0x90000000#32⟩, by decide, rfl, by
    simp only [OpRow.hits, encode]; decide⟩

end Sys2Proof.Laws.EncodeMatchesRow
end

