-- ==== Sys2Proof/Tests/Slice0.lean ====
section
/-! SUPPORT. The author's tests. Expected values are the vectors of 95_test_vectors.md unless a
comment says otherwise. The theorems named witness_<Statement> show that the hypotheses of a
statement can be met together, clause by clause at boundary values. -/

namespace Sys2Proof.Tests

open Sys2Proof.Machine

/-- The reset state with another working glyph. -/
def withGlyph (g : Glyph) : State := State.reset.setGr g

/-- The reset state with another working glyph and the host's next action. -/
def withEvent (g : Glyph) (e : HostEvent) : State := (withGlyph g).setHost [e]

/-- Read something of the next state. -/
def after {α : Type} (f : State → α) : Host.Outcome State Fault Refusal → Option α
  | .next s => some (f s)
  | _ => none

/-- The hollow square of S9. -/
def hollow : Glyph := 0xFF818181818181FF#64

/-- The letter of 95_test_vectors.md section 2. -/
def letterF : Glyph := 0x000202021E02023E#64

/-- Image V-IMG-A of 95_test_vectors.md section 2.7. -/
def imageA : Image :=
  { background := ⟨255, 255, 255⟩
    pixels := [(0, ⟨0, 0, 0⟩), (1, ⟨0, 0, 1⟩), (2, ⟨1, 1, 1⟩), (3, ⟨0, 1, 0⟩), (4, ⟨1, 0, 0⟩),
      (8, ⟨0, 0, 0⟩), (255, ⟨0, 0, 0⟩), (256 * 7 + 7, ⟨0, 0, 0⟩), (256 * 8, ⟨0, 0, 0⟩),
      (256 * 37 + 100, ⟨0, 0, 0⟩), (256 * 63, ⟨0, 0, 0⟩), (256 * 63 + 255, ⟨0, 0, 0⟩)] }

/-! ### Well-formedness -/

theorem test_wf_refuses_rdat_above : (Instr.rdat 32768).wf = false := by decide
theorem test_wf_refuses_rdat_below : (Instr.rdat (-32769)).wf = false := by decide
theorem test_wf_refuses_stat_above : (Instr.stat 32768).wf = false := by decide
theorem test_wf_refuses_stat_below : (Instr.stat (-32769)).wf = false := by decide
theorem test_wf_bounds :
    (Instr.rdat (-32768)).wf = true ∧ (Instr.stat 32767).wf = true := by decide

/-! ### Decoding: words written out from 30_encoding.md R46 and R48 -/

theorem test_decode_rdat : decode 0x10000046#32 0#64 = .ok (.rdat 70) := by rfl
theorem test_decode_rdat_negative : decode 0x10008000#32 0#64 = .ok (.rdat (-32768)) := by rfl
theorem test_decode_stat : decode 0x2000FFFF#32 0#64 = .ok (.stat (-1)) := by rfl
theorem test_decode_ldg : decode 0x30000000#32 hollow = .ok (.ldg hollow) := by rfl
theorem test_decode_inv : decode 0x40000000#32 7#64 = .ok .inv := by rfl
theorem test_decode_rev : decode 0x50000000#32 0#64 = .ok .rev := by rfl
theorem test_decode_tgl : decode 0x601C0000#32 0#64 = .ok (.tgl 3 4) := by rfl
theorem test_decode_grid : decode 0x70000000#32 0#64 = .ok .grid := by rfl
theorem test_decode_prv : decode 0x80000000#32 0#64 = .ok .prv := by rfl
theorem test_decode_import :
    decode 0x90000000#32 0xFFFF00400100FFFC#64 = .ok (.importFont .decoded 256#16 64#16) := by rfl
theorem test_decode_import_not_found :
    decode 0x90000000#32 0x0000004001000001#64 = .ok (.importFont .notFound 256#16 64#16) := by rfl

/-- The illegal words of section 2.8, each with its reason. -/
theorem test_decode_illegal :
    decode 0x00000000#32 0#64 = .error .reservedOpcode ∧
    decode 0xFFFFFFFF#32 0#64 = .error .zNotZero ∧
    decode 0xA0000000#32 0#64 = .error .reservedOpcode ∧
    decode 0x40000001#32 0#64 = .error .unusedNotZero ∧
    decode 0x50010000#32 0#64 = .error .unusedNotZero ∧
    decode 0x10010046#32 0#64 = .error .unusedNotZero ∧
    decode 0x20080041#32 0#64 = .error .unusedNotZero ∧
    decode 0x60130001#32 0#64 = .error .unusedNotZero ∧
    decode 0x30400000#32 0#64 = .error .zNotZero ∧
    decode 0x84000000#32 0#64 = .error .zNotZero ∧
    decode 0x90000000#32 0x0000004001000003#64 = .error .reservedSource :=
  ⟨rfl, rfl, rfl, rfl, rfl, rfl, rfl, rfl, rfl, rfl, rfl⟩

theorem test_encode_import :
    encode (.importFont .undecodable 64#16 256#16) = (0x90000000#32, 0x0000010000400002#64) := by
  decide
theorem test_encode_negative_index : encode (.stat (-1)) = (0x2000FFFF#32, 0#64) := by decide
theorem test_table_word : decodeTableWord 32 0x603F0000 = some (.tgl 7 7) := by decide

/-! ### The commands -/

/-- V-INV-4. -/
theorem test_inv : after State.gr (exec .inv (withGlyph letterF)) = some 0xFFFDFDFDE1FDFDC1#64 := by
  decide

/-- V-REV-1. -/
theorem test_rev_diagonal :
    after State.gr (exec .rev (withGlyph 0x8040201008040201#64)) = some 0x0102040810204080#64 := by
  decide +kernel

/-- V-REV-3. -/
theorem test_rev_letter :
    after State.gr (exec .rev (withGlyph letterF)) = some 0x004040407840407C#64 := by decide +kernel

/-- V-TGL-4: no carry into row 1. -/
theorem test_tgl_high_column : after State.gr (exec (.tgl 0 7) State.reset) = some 0x80#64 := by
  decide

/-- V-TGL-7. -/
theorem test_tgl_clears :
    after State.gr (exec (.tgl 3 4) (withGlyph 0xFFFFFFFFFFFFFFFF#64))
      = some 0xFFFFFFFFEFFFFFFF#64 := by decide

/-- V-CON-2, and the worked example of 20_memory.md R34. -/
theorem test_stat_layout :
    after (fun t => (memRead t.rs 519 10, t.gr)) (exec (.stat 65) (withGlyph hollow))
      = some (some [0#8, 0xFF#8, 0x81#8, 0x81#8, 0x81#8, 0x81#8, 0x81#8, 0x81#8, 0xFF#8, 0#8],
          hollow) := by decide

/-- V-CON-6. -/
theorem test_stat_out_of_range :
    after id (exec (.stat (-32768)) (withGlyph letterF))
      = some { withGlyph letterF with err := 1#4 } := by decide

/-- S4: 255 is in range, 256 is not and does not wrap. -/
theorem test_rdat_range :
    after State.err (exec (.rdat 255) State.reset) = some 0#4 ∧
    after State.err (exec (.rdat 256) State.reset) = some 1#4 := by decide

/-- V-CON-9: the rows from row 0. -/
theorem test_ldg_rows :
    after (fun t => (List.range 8).map (row t.gr)) (exec (.ldg 0x0123456789ABCDEF#64) State.reset)
      = some [0xEF#8, 0xCD#8, 0xAB#8, 0x89#8, 0x67#8, 0x45#8, 0x23#8, 0x01#8] := by decide

/-- V-GRID-4. -/
theorem test_grid : after State.bg (exec .grid (withGlyph 0x8001#64)) = some 0x8001#64 := by
  decide +kernel

/-- V-PRV-2, the hollow square. -/
theorem test_prv_hollow :
    after State.pv (exec .prv (withGlyph hollow)) = some 0xECCDA005A005B337#64 := by decide +kernel

/-- V-PRV-2, the letter, with its nineteen code points. -/
theorem test_prv_letter :
    after (fun t => (t.pv, portPvch t)) (exec .prv (withGlyph letterF))
      = some (0x0002000A04CA033A#64,
          [0x2590#16, 0x2580#16, 0x2580#16, 0x0020#16, 0x000A#16, 0x2590#16, 0x2584#16, 0x2596#16,
           0x0020#16, 0x000A#16, 0x2590#16, 0x0020#16, 0x0020#16, 0x0020#16, 0x000A#16, 0x259D#16,
           0x0020#16, 0x0020#16, 0x0020#16]) := by decide +kernel

/-- V-IMP-4: the dimensions exchanged. -/
theorem test_import_wrong_size :
    after id (exec (.importFont .decoded 64#16 256#16) (withGlyph letterF))
      = some { withGlyph letterF with err := 6#4 } := by decide

/-- The placement table of section 2.7, glyph by glyph. -/
theorem test_import_placement :
    importGlyph imageA 0 = 0x8000000000000001#64 ∧ importGlyph imageA 1 = 1#64 ∧
    importGlyph imageA 31 = 0x80#64 ∧ importGlyph imageA 32 = 1#64 ∧
    importGlyph imageA 140 = 0x0000100000000000#64 ∧ importGlyph imageA 141 = 0#64 ∧
    importGlyph imageA 224 = 0x0100000000000000#64 ∧
    importGlyph imageA 255 = 0x8000000000000000#64 := by decide +kernel

/-- The pixel classification of section 2.7. -/
theorem test_black :
    black ⟨0, 0, 0⟩ = true ∧ black ⟨0, 0, 1⟩ = false ∧ black ⟨0, 1, 0⟩ = false ∧
    black ⟨1, 0, 0⟩ = false ∧ black ⟨128, 128, 128⟩ = false := by decide

/-! ### The step -/

/-- V-INV-3 as the first command after reset, through the port. -/
theorem test_step_runs_fetch_word :
    after (fun t => (t.gr, t.host)) (step ((withGlyph hollow).withFetchWord 32 0x40000000))
      = some (0x007E7E7E7E7E7E00#64, []) := by decide

/-- `IllegalCommand` wins over `IndexError` (section 2.8). -/
theorem test_step_illegal_first :
    after id (step (withEvent letterF (.issue 0x1001FFFF#32 0#64)))
      = some { withGlyph letterF with err := 7#4 } := by decide

/-- An abandoned STAT leaves nothing (70_reset_and_hazards.md R140). -/
theorem test_step_abandon :
    after id (step (withEvent letterF (.abandon 0x20000000#32 0#64))) = some State.reset := by decide

/-! ### Host software -/

/-- 30_encoding.md R54, one line of each shape. -/
theorem test_assemble :
    assembleLine "RDAT -1 ; below the store".toList = .command (.rdat (-1)) ∧
    assembleLine "TGL 2, 3".toList = .command (.tgl 2 3) ∧
    assembleLine "LDG glyph(0xFF,0x81,0x81,0x81,0x81,0x81,0x81,0xFF)".toList
      = .command (.ldg hollow) ∧
    assembleLine "IMPORT 0, 256, 64".toList = .command (.importFont .decoded 256#16 64#16) ∧
    assembleLine "; nothing".toList = .blank ∧
    assembleLine "IMPORT 3, 256, 64".toList = .bad ∧
    assembleLine "TGL 8, 0".toList = .bad ∧ assembleLine "inv".toList = .bad := by decide +kernel

/-- 30_encoding.md R55: a SHOW that fails reports its code and no characters. -/
theorem test_show_out_of_range :
    (match callPseudo (.showGlyph 256) (withGlyph letterF) with
      | .next (t, r) => decide (t = { withGlyph letterF with err := 1#4 } ∧ r = .failed 1#4)
      | _ => false) = true := by decide

/-- The constants of 00_scope.md R4 agree with each other. -/
theorem test_config :
    Config.cellCols * Config.cellRows = Config.nGlyph ∧ Config.nRow * Config.cellRows = Config.imgH ∧
    Config.nCol * Config.cellCols = Config.imgW ∧ Config.nGlyph * Config.nRow = Config.nBytes := by
  decide

/-- 45_file_gateway.md R115: a readable 100-byte file (S8). -/
theorem test_load_short_file :
    (match loadProcedure true (.readable (List.replicate 100 0#8)) State.reset with
      | .next (s, r) => decide (s = State.reset ∧ r = ⟨true, 2#4⟩)
      | _ => false) = true := by decide

/-! ### Witnesses for the hypotheses of the statements -/

theorem witness_DecodeOfEncodeIsIdentity : (Instr.stat (-32768)).wf = true := by decide

theorem witness_EncodeOfDecodeIsIdentity :
    decode 0x90000000#32 0xFFFF00400100FFFC#64 = .ok (.importFont .decoded 256#16 64#16) := by rfl

theorem witness_OpcodeMapRowsAreDisjoint :
    ∃ p ∈ opcodeMap, ∃ q ∈ opcodeMap, p.hits 0x60130000#32 = true ∧ q.hits 0x60130000#32 = true := by
  decide

theorem witness_IllegalWordSetsCodeSevenOnly :
    (∀ r ∈ opcodeMap, r.hits 0x50010000#32 = false) ∧
    reservedWord 0x00000000#32 = true ∧ reservedWord 0xA0000000#32 = true ∧
    reservedWord 0x30400000#32 = true ∧
    (fieldOp 0x20080041#32 = 0x2#4 ∧ fieldRow 0x20080041#32 ≠ 0#3) ∧
    (fieldOp 0x60130001#32 = 0x6#4 ∧ fieldIdx 0x60130001#32 ≠ 0#16) ∧
    (fieldOp 0x40000001#32 = 0x4#4 ∧ fieldIdx 0x40000001#32 ≠ 0#16) := by decide

theorem witness_NoCommandRaisesIllegalCommand :
    (∀ r ∈ opcodeMap, r.hits 0xFFFFFFFF#32 = false) ∧ fieldSrc 0x0000004001000003#64 = 3#2 := by
  decide

theorem witness_UnreadDinHasNoEffect :
    sameDin 0x30000000#32 5#64 5#64 ∧ sameDin 0x40000000#32 5#64 6#64 ∧
    sameDin 0x90000000#32 0xFFFF00400100FFFC#64 0x0000004001000000#64 :=
  ⟨by unfold sameDin; decide, by unfold sameDin; decide, by unfold sameDin; decide⟩

theorem witness_StepRunsTheIssuedCommand :
    (withEvent 0#64 (.issue 0x50000000#32 0#64)).host = .issue 0x50000000#32 0#64 :: [] ∧
    decode 0x50000000#32 0#64 = .ok .rev := ⟨rfl, rfl⟩

/-- The same for a word that is no command, and for an IMPORT with `SRC = 3`. -/
theorem witness_StepRunsTheIssuedCommand_illegal :
    (withEvent 0#64 (.issue 0x50000001#32 0#64)).host = .issue 0x50000001#32 0#64 :: [] ∧
    decode 0x50000001#32 0#64 = .error .unusedNotZero ∧
    (withEvent 0#64 (.issue 0x90000000#32 3#64)).host = .issue 0x90000000#32 3#64 :: [] ∧
    decode 0x90000000#32 3#64 = .error .reservedSource := ⟨rfl, rfl, rfl, rfl⟩

theorem witness_IdleUnitWaits : (withGlyph letterF).host = [] := rfl

theorem witness_PresentingAnImageLeavesTheUnit :
    (withEvent letterF (.present imageA)).host = .present imageA :: [] := rfl

theorem witness_ResetEventClearsTheUnit :
    (withEvent letterF .reset).host = .reset :: [] ∧
    (withEvent letterF (.abandon 0x20000000#32 0#64)).host = .abandon 0x20000000#32 0#64 :: [] :=
  ⟨rfl, rfl⟩

theorem witness_FailedCommandChangesOnlyErr :
    ∃ t, issue 0x10000100#32 0#64 (withGlyph letterF) = .next t ∧ t.err ≠ 0#4 :=
  ⟨_, rfl, by decide⟩

/-- A state in which every part of the invariant has something to say. -/
def busyState : State :=
  { rs := [(0, 1#8), (2047, 0x80#8)], gr := letterF, bg := 0#64, pv := 0#64, err := 7#4,
    image := imageA, host := [.present imageA, .issue 0x20000000#32 0#64] }

theorem busyState_inv : busyState.Inv :=
  ⟨by decide, by decide, by decide, by
    intro e he
    simp only [busyState, List.mem_cons, List.mem_nil_iff, or_false] at he
    rcases he with rfl | rfl
    · exact (by decide : imageA.wf)
    · trivial⟩

theorem witness_StepKeepsInvariant : busyState.Inv ∧ ∃ t, step busyState = .next t :=
  ⟨busyState_inv, _, rfl⟩

theorem witness_RdatLoadsTheEntry :
    ((0 : Int) ≤ 0 ∧ (0 : Int) ≤ 255) ∧ ((0 : Int) ≤ 255 ∧ (255 : Int) ≤ 255) := by decide

theorem witness_StatStoresTheGlyph :
    ((0 : Int) ≤ 0 ∧ (0 : Int) ≤ 255) ∧ ((0 : Int) ≤ 255 ∧ (255 : Int) ≤ 255) := by decide

theorem witness_IndexCheckOfRdatAndStat :
    (0x1#4 = 0x1#4 ∨ 0x1#4 = 0x2#4) ∧
    (0 ≤ (255#16).toInt ∧ (255#16).toInt ≤ 255) ∧ ¬ (0 ≤ (256#16).toInt ∧ (256#16).toInt ≤ 255) ∧
    ¬ (0 ≤ (0xFFFF#16).toInt ∧ (0xFFFF#16).toInt ≤ 255) := by decide

theorem witness_StoreThenReadBack :
    (0 : Int) ≤ 0 ∧ (0 : Int) ≤ 255 ∧ (255 : Int) ≤ 255 ∧ (255 : Int) ≠ 0 := by decide

theorem witness_EqualGlyphsAreEqualStores :
    Memory.wf [(0, 1#8), (2047, 0x80#8)] ∧ Memory.wf [(8, 1#8)] := by decide

theorem witness_TransformsActRowByRow :
    row hollow 7 = row 0xFF00000000000000#64 7 ∧ hollow ≠ 0xFF00000000000000#64 := by decide

/-- A glyph whose rows are palindromes, and the corner rows, columns and cells. -/
theorem witness_TransformLaws :
    (∀ i < 8, (row hollow i).reverse = row hollow i) ∧ (0 : Nat) < 8 ∧ (7 : Nat) < 8 := by
  decide +kernel

theorem witness_PreviewOfBlankAndFull :
    (withGlyph 0#64).gr = 0#64 ∧
    (withGlyph 0xFFFFFFFFFFFFFFFF#64).gr = 0xFFFFFFFFFFFFFFFF#64 := ⟨rfl, rfl⟩

theorem witness_ImportChecksInOrder :
    fieldSrc 0x0000004001000001#64 = 1#2 ∧ fieldSrc 0x0000004001000002#64 = 2#2 ∧
    (fieldSrc 0x0000004000FF0000#64 = 0#2 ∧ fieldW 0x0000004000FF0000#64 ≠ 256#16) ∧
    (fieldSrc 0x0000004101000000#64 = 0#2 ∧ fieldH 0x0000004101000000#64 ≠ 64#16) ∧
    (fieldSrc 0xFFFF00400100FFFC#64 = 0#2 ∧ fieldW 0xFFFF00400100FFFC#64 = 256#16 ∧
      fieldH 0xFFFF00400100FFFC#64 = 64#16) := by decide

/-- Two different images, two different old stores, the same black pixels: none. -/
theorem witness_ImportDependsOnBlackPixelsOnly :
    ∀ x < 256, ∀ y < 64,
      black (pixRead (State.reset.setImage ⟨⟨9, 9, 9⟩, []⟩).image x y)
        = black (pixRead (busyState.setImage ⟨⟨1, 0, 0⟩, []⟩).image x y) := fun _ _ _ _ => rfl

theorem witness_EveryFontIsImportable :
    ∃ s : State, s.image = imageOf fun n => BitVec.ofNat 64 n :=
  ⟨State.reset.setImage (imageOf fun n => BitVec.ofNat 64 n), rfl⟩

theorem witness_OnlyStatAndImportWriteTheStore :
    ∃ t, exec (.stat 255) (withGlyph letterF) = .next t ∧ t.rs ≠ (withGlyph letterF).rs :=
  ⟨_, rfl, by decide⟩

theorem witness_OnlyStatAndImportWriteTheStore_import :
    ∃ t, exec (.importFont .decoded 256#16 64#16) (busyState.setImage ⟨⟨9, 9, 9⟩, []⟩) = .next t ∧
      t.rs ≠ (busyState.setImage ⟨⟨9, 9, 9⟩, []⟩).rs := by
  refine ⟨_, exec_import_decoded (by decide) _, fun h => ?_⟩
  have e := congrArg (fun m => readByte m 0) h
  simp only [done_rs, State.setRs_rs, importStore, ofGlyphRows, readByte_ofBytes] at e
  exact absurd e (by decide)

theorem witness_WritersOfTheRegisters :
    (∃ t, exec .inv (withGlyph letterF) = .next t ∧ t.gr ≠ (withGlyph letterF).gr) ∧
    (∃ t, exec .grid (withGlyph 1#64) = .next t ∧ t.bg ≠ (withGlyph 1#64).bg) ∧
    (∃ t, exec .prv (withGlyph 1#64) = .next t ∧ t.pv ≠ (withGlyph 1#64).pv) :=
  ⟨⟨_, rfl, by decide⟩, ⟨_, rfl, by decide +kernel⟩, ⟨_, rfl, by decide +kernel⟩⟩

theorem witness_CommandsLeaveTheHostAlone :
    ∃ t, issue 0x20000041#32 0#64 busyState = .next t := ⟨_, rfl⟩

theorem witness_OutputsNeverFlowBack :
    SameInputs busyState { busyState with bg := 5#64, pv := 6#64, err := 0#4 } ∧
    (∃ t, issue 0x10000000#32 0#64 busyState = .next t) ∧
    (∃ v, issue 0x10000000#32 0#64 { busyState with bg := 5#64, pv := 6#64, err := 0#4 } = .next v) :=
  ⟨⟨rfl, rfl, rfl⟩, ⟨_, rfl⟩, ⟨_, rfl⟩⟩

/-- The same for the two commands that write an output register. -/
theorem witness_OutputsNeverFlowBack_renderers :
    decode 0x70000000#32 0#64 = .ok .grid ∧ (∃ t, issue 0x70000000#32 0#64 busyState = .next t) ∧
    decode 0x80000000#32 0#64 = .ok .prv ∧ (∃ t, issue 0x80000000#32 0#64 busyState = .next t) :=
  ⟨rfl, ⟨_, rfl⟩, rfl, ⟨_, rfl⟩⟩

theorem witness_MemReadAfterMemWrite :
    2047 + [1#8].length ≤ 2048 ∧ 2048 + ([] : List Byte).length ≤ 2048 := by decide

theorem witness_StoreBytesOfDecode : (List.replicate 2048 0xA5#8).length = 2048 := by
  rw [List.length_replicate]

theorem witness_DecodeAgreesWithOpcodeMap :
    (⟨"IMPORT", 0xFFFFFFFF#32, 0x90000000#32⟩ : OpRow) ∈ opcodeMap := by decide

theorem witness_GlyphIsLittleEndian : (0 : Nat) < 256 ∧ (255 : Nat) < 256 := by decide

theorem witness_DecodeOfStoreBytes : busyState.rs.wf := by decide

theorem witness_DecodeGuardsTheLength :
    ([] : List Byte).length ≠ 2048 ∧ (List.replicate 2047 0#8).length ≠ 2048 ∧
    (List.replicate 2049 0#8).length ≠ 2048 := by
  simp only [List.length_replicate, List.length_nil]; decide

theorem witness_DecodeProcedureReplacesTheStore :
    (List.replicate 2048 0xA5#8).length = 2048 ∧ busyState.rs.wf :=
  ⟨by rw [List.length_replicate], by decide⟩

theorem witness_EditingCompositions :
    ((0 : Int) ≤ 0 ∧ (0 : Int) ≤ 255) ∧ ((0 : Int) ≤ 255 ∧ (255 : Int) ≤ 255) := by decide

theorem witness_PseudoInstructionsReport :
    ((0 : Int) ≤ 0 ∧ (255 : Int) ≤ 255) ∧ ((-1 : Int) < 0 ∨ (255 : Int) < -1) ∧
    ((256 : Int) < 0 ∨ (255 : Int) < 256) := by decide

theorem witness_LoadOutcomes :
    (∀ i < 256, readGlyph State.reset.rs i = 0#64) ∧
    (List.replicate 100 0#8).length ≠ 2048 ∧ (List.replicate 2048 1#8).length = 2048 :=
  ⟨fun _ _ => (by decide : ofRows (fun _ => unlistedByte) = 0#64),
    by simp only [List.length_replicate]; decide, by rw [List.length_replicate]⟩

theorem witness_ImportImageReturnsTheCode : (65536 : Nat) ≠ 256 ∧ (63 : Nat) ≠ 64 := by decide

/-- An index at either end of its range, a number at the end of its own, and a line. -/
theorem witness_AssembledLinesDecode :
    IndexText ['-', '3', '2', '7', '6', '8'] (-32768) ∧ IndexText ['3', '2', '7', '6', '7'] 32767 ∧
    NumberText ['0', 'x', 'f', 'F'] 255 ∧ NumberText ['7'] 7 ∧
    assembleLine "STAT 0x41".toList = .command (.stat 65) :=
  ⟨.inr ⟨by decide, _, rfl, .inl ⟨[3, 2, 7, 6, 8], by decide, rfl, by decide⟩⟩,
    .inl ⟨by decide, .inl ⟨[3, 2, 7, 6, 7], by decide, rfl, by decide⟩⟩,
    .inr ⟨[(true, 15), (false, 15)], by decide, rfl, by decide⟩,
    .inl ⟨[7], by decide, rfl, by decide⟩, by decide +kernel⟩

end Sys2Proof.Tests
end

section
/-! The host's side of the state: which steps change the image source and the host's next actions,
and that the unit's own elements stay when they do. -/

namespace Sys2Proof.Machine

/-- One step on a unit to which something is presented is the reaction to it (log entry 1). -/
theorem step_of_host_cons {s : State} {e : HostEvent} {rest : List HostEvent}
    (h : s.host = e :: rest) : step s = react e (s.setHost rest) := by
  simp only [step, stepHost, h]

theorem react_present (img : Image) (s : State) : react (.present img) s = .next (s.setImage img) :=
  rfl

/-- What the other two agents hold is no element of the unit's state (00_scope.md R7). -/
theorem sameUnit_setImage_setHost (s : State) (img : Image) (rest : List HostEvent) :
    SameUnit s ((s.setHost rest).setImage img) where
  rs := by rw [State.setImage_rs, State.setHost_rs]
  gr := by rw [State.setImage_gr, State.setHost_gr]
  bg := by rw [State.setImage_bg, State.setHost_bg]
  pv := by rw [State.setImage_pv, State.setHost_pv]
  err := by rw [State.setImage_err, State.setHost_err]

/-- Everything an issued pair can do: run the command it decodes to, or report code 7. -/
theorem issue_cases {cmd : CmdWord} {din : Operand} {s t : State} (h : issue cmd din s = .next t) :
    (∃ i, decode cmd din = .ok i ∧ exec i s = .next t) ∨
    (∃ e, decode cmd din = .error e ∧ t = raise .illegalCommand s) := by
  cases hd : decode cmd din with
  | ok i =>
    rw [issue_ok hd] at h
    exact .inl ⟨i, rfl, h⟩
  | error e =>
    rw [issue_error hd] at h
    cases h
    exact .inr ⟨e, rfl, rfl⟩

/-- No command writes the image pixel space (20_memory.md R35) or what the host does next: each
writes one of `RS`, `GR`, `BG`, `PV` and `ST.ERR`, or `ST.ERR` alone. -/
theorem exec_keeps_image_and_host {i : Instr} {s t : State} (h : exec i s = .next t) :
    t.image = s.image ∧ t.host = s.host := by
  obtain ⟨g, rfl⟩ | ⟨idx, -, -, rfl⟩ | ⟨w, e, -, -, rfl⟩ | ⟨-, rfl⟩ | ⟨-, rfl⟩ | ⟨k, -, rfl⟩ :=
    exec_cases h
  all_goals simp only [done_image, done_host, raise_image, raise_host, State.setGr_image,
    State.setGr_host, State.setRs_image, State.setRs_host, State.setBg_image, State.setBg_host,
    State.setPv_image, State.setPv_host, and_self]

/-- Settles O45: a pair that decodes runs a command, and no command touches the image source or the
host's next actions; every other pair only reports code 7. -/
theorem commandsLeaveTheHostAlone : Obligations.CommandsLeaveTheHostAlone := by
  intro cmd din s t h
  obtain ⟨i, -, hexec⟩ | ⟨e, -, rfl⟩ := issue_cases h
  · exact exec_keeps_image_and_host hexec
  · exact ⟨raise_image _ s, raise_host _ s⟩

/-- Settles O11: the step takes the event off the host's list and replaces the image source. -/
theorem presentingAnImageLeavesTheUnit : Obligations.PresentingAnImageLeavesTheUnit := by
  intro s img rest h
  refine ⟨(s.setHost rest).setImage img, ?_, sameUnit_setImage_setHost s img rest, ?_, ?_⟩
  · rw [step_of_host_cons h, react_present]
  · exact State.setImage_image _ img
  · rw [State.setImage_host, State.setHost_host]

end Sys2Proof.Machine
end

section
/-! The blank store, the renderings of the blank glyph, and reset. -/

namespace Sys2Proof.Machine

@[simp] theorem readByte_nil (a : Nat) : readByte [] a = 0#8 := rfl

/-- The store with nothing listed holds 256 blank glyphs (10_state.md R24). -/
@[simp] theorem readGlyph_nil (i : Nat) : readGlyph [] i = 0#64 := by
  apply glyph_ext_rows
  intro r hr
  rw [row_readGlyph _ _ hr, readByte_nil, row, BitVec.extractLsb'_zero]

/-- `BG` holds the booleans of GRID as the glyph itself packs them (43_preview.md R90). -/
@[simp] theorem packGrid_toBitGrid (g : Glyph) : packGrid (toBitGrid g) = g := by
  apply BitVec.eq_of_getLsbD_eq
  intro k hk
  rw [packGrid, getLsbD_ofBits, decide_eq_true hk, Bool.true_and, toBitGrid_eq_px,
    ← getLsbD_eq_px]

@[simp] theorem px_zero (i j : Nat) : px 0#64 i j = false := by simp [px, row]

/-- Every cell of the blank glyph has code 0 (43_preview.md R91). -/
@[simp] theorem quadrantCode_zero (cy cx : Nat) : quadrantCode 0#64 cy cx = 0 := by
  simp [quadrantCode, weighted]

/-- The preview of the blank glyph is blank (43_preview.md R95). -/
@[simp] theorem previewCodes_zero : previewCodes 0#64 = 0#64 := by
  apply codes_ext
  intro n hn
  rw [previewCodes, nibble_ofNibbles _ hn, quadrantCode_zero, nibble, BitVec.extractLsb'_zero]

theorem react_reset (s : State) : react .reset s = .next (resetUnit s) := rfl

/-- An abandoned command leaves no trace: the unit is reset, whatever the pair was
(70_reset_and_hazards.md R140). -/
theorem react_abandon (cmd : CmdWord) (din : Operand) (s : State) :
    react (.abandon cmd din) s = .next (resetUnit s) := rfl

/-- Settles O13: the elements are zero as written, and the two renderings of the blank glyph are
zero too. -/
theorem resetStateIsZero : Obligations.ResetStateIsZero :=
  ⟨fun i _ => readGlyph_nil i, rfl, rfl, rfl, rfl, (packGrid_toBitGrid 0#64).symm,
    previewCodes_zero.symm, by decide⟩

/-- Settles O12: both events answer with `resetUnit` of the state whose event was taken. -/
theorem resetEventClearsTheUnit : Obligations.ResetEventClearsTheUnit := by
  intro s e rest hhost he
  have hreact : react e (s.setHost rest) = .next (resetUnit (s.setHost rest)) := by
    obtain rfl | ⟨cmd, din, rfl⟩ := he
    · exact react_reset _
    · exact react_abandon cmd din _
  refine ⟨resetUnit (s.setHost rest), (step_of_host_cons hhost).trans hreact, ?_, ?_, ?_⟩
  · intro i _
    rw [resetUnit_rs, readGlyph_nil]
  · intro a
    rw [resetUnit_rs, readByte_nil]
  · simp only [resetUnit_gr, resetUnit_bg, resetUnit_pv, resetUnit_err, resetUnit_image,
      resetUnit_host, State.setHost_image, State.setHost_host, and_self]

end Sys2Proof.Machine
end

section
/-! The store as data: canonical stores are equal when their glyphs are, and who writes the store and
the registers. -/

namespace Sys2Proof.Machine

/-- Canonical stores with the same glyphs read the same at every address: below 2048 an address is a
row of one of the 256 glyphs, and from there on nothing is listed. -/
theorem readByte_eq_of_sameGlyphs {m n : Memory} (hm : m.wf) (hn : n.wf) (h : sameGlyphs m n)
    (a : Nat) : readByte m a = readByte n a := by
  by_cases ha : a < Config.nBytes
  · have hglyph : readGlyph m (a / 8) = readGlyph n (a / 8) :=
      h _ (by simp only [Config.nBytes, Config.nGlyph] at *; omega)
    rw [readByte_eq_row m, readByte_eq_row n, hglyph]
  · have hout : Config.nBytes ≤ a := Nat.le_of_not_lt ha
    rw [readByte_outside hm hout, readByte_outside hn hout]

/-- Settles O24: the glyphs fix every byte, and the bytes fix a canonical store. -/
theorem equalGlyphsAreEqualStores : Obligations.EqualGlyphsAreEqualStores := by
  intro m n hm hn
  constructor
  · intro h
    exact Memory.ext_wf hm hn (readByte_eq_of_sameGlyphs hm hn h)
  · rintro rfl i _
    rfl

/-- Everything a command can do to the store: keep it, write one glyph (STAT of a valid index), or
replace it by the image's glyphs (an IMPORT of the right size); a write comes with code 0. -/
theorem exec_store_cases {i : Instr} {s t : State} (h : exec i s = .next t) :
    t.rs = s.rs ∨
    (∃ idx, i = .stat idx ∧ validIndex idx = true ∧ t.err = successCode ∧
      t.rs = writeGlyph s.rs (glyphIndex idx) s.gr) ∨
    (i = .importFont .decoded 256#16 64#16 ∧ t.err = successCode ∧ t.rs = importStore s.image) := by
  obtain ⟨g, rfl⟩ | ⟨idx, hi, hv, rfl⟩ | ⟨w, e, hi, hsize, rfl⟩ | ⟨-, rfl⟩ | ⟨-, rfl⟩ | ⟨k, -, rfl⟩ :=
    exec_cases h
  · exact .inl rfl
  · exact .inr (.inl ⟨idx, hi, hv, rfl, rfl⟩)
  · obtain ⟨rfl, rfl⟩ := (rightSize_iff w e).mp hsize
    exact .inr (.inr ⟨hi, done_err _, by rw [done_rs, State.setRs_rs]⟩)
  · exact .inl rfl
  · exact .inl rfl
  · exact .inl rfl

/-- Settles O43: in every other case the store is the old one. -/
theorem onlyStatAndImportWriteTheStore : Obligations.OnlyStatAndImportWriteTheStore := by
  intro i s t h hne
  obtain hkept | ⟨idx, hi, -, herr, -⟩ | ⟨hi, herr, -⟩ := exec_store_cases h
  · exact absurd hkept hne
  · exact ⟨herr, .inl ⟨idx, hi⟩⟩
  · exact ⟨herr, .inr hi⟩

/-- STAT reads `GR` and does not write it (10_state.md R16). -/
theorem exec_stat_keeps_gr {idx : Int} {s t : State} (h : exec (.stat idx) s = .next t) :
    t.gr = s.gr := by
  cases hv : validIndex idx with
  | true => rw [exec_stat_valid hv] at h; cases h; rfl
  | false => rw [exec_stat_invalid hv] at h; cases h; rfl

/-- IMPORT replaces the font and leaves the working glyph (10_state.md R16). -/
theorem exec_import_keeps_gr {src : ImageStatus} {w e : BitVec 16} {s t : State}
    (h : exec (.importFont src w e) s = .next t) : t.gr = s.gr := by
  cases src with
  | notFound => rw [exec_import_notFound] at h; cases h; rfl
  | undecodable => rw [exec_import_undecodable] at h; cases h; rfl
  | decoded =>
    cases hsize : rightSize w e with
    | true =>
      rw [exec_import_decoded hsize] at h
      rw [← Host.Outcome.next.inj h, done_gr, State.setRs_gr]
    | false => rw [exec_import_wrong_size hsize] at h; cases h; rfl

/-- The writers of `GR` (10_state.md R16). -/
theorem exec_gr_cases {i : Instr} {s t : State} (h : exec i s = .next t) :
    t.gr = s.gr ∨ (∃ idx, i = .rdat idx) ∨ (∃ v, i = .ldg v) ∨ i = .inv ∨ i = .rev ∨
      ∃ r c, i = .tgl r c := by
  cases i with
  | stat idx => exact .inl (exec_stat_keeps_gr h)
  | grid => rw [exec_grid] at h; cases h; exact .inl rfl
  | prv => rw [exec_prv] at h; cases h; exact .inl rfl
  | importFont src w e => exact .inl (exec_import_keeps_gr h)
  | rdat idx => exact .inr (.inl ⟨idx, rfl⟩)
  | ldg v => exact .inr (.inr (.inl ⟨v, rfl⟩))
  | inv => exact .inr (.inr (.inr (.inl rfl)))
  | rev => exact .inr (.inr (.inr (.inr (.inl rfl))))
  | tgl r c => exact .inr (.inr (.inr (.inr (.inr ⟨r, c, rfl⟩))))

/-- The only writers of the output registers are their renderers (10_state.md R17). -/
theorem exec_outputs_cases {i : Instr} {s t : State} (h : exec i s = .next t) :
    (t.bg = s.bg ∨ i = .grid) ∧ (t.pv = s.pv ∨ i = .prv) := by
  obtain ⟨g, rfl⟩ | ⟨idx, -, -, rfl⟩ | ⟨w, e, -, -, rfl⟩ | ⟨hi, rfl⟩ | ⟨hi, rfl⟩ | ⟨k, -, rfl⟩ :=
    exec_cases h
  · exact ⟨.inl rfl, .inl rfl⟩
  · exact ⟨.inl rfl, .inl rfl⟩
  · exact ⟨.inl (by rw [done_bg, State.setRs_bg]), .inl (by rw [done_pv, State.setRs_pv])⟩
  · exact ⟨.inr hi, .inl rfl⟩
  · exact ⟨.inl rfl, .inr hi⟩
  · exact ⟨.inl rfl, .inl rfl⟩

/-- Settles O44: a register that changed was written by one of its writers. -/
theorem writersOfTheRegisters : Obligations.WritersOfTheRegisters := by
  intro i s t h
  obtain ⟨hbg, hpv⟩ := exec_outputs_cases h
  exact ⟨(exec_gr_cases h).resolve_left, hbg.resolve_left, hpv.resolve_left⟩

end Sys2Proof.Machine
end

section
/-! The invariant: it holds at reset, and every step keeps it. -/

namespace Sys2Proof.Machine

theorem Image.initial_wf : Image.initial.wf := by decide

/-- Settles O17: the store and the image are empty lists, the code is 0, no event waits. -/
theorem resetMeetsInvariant : Obligations.ResetMeetsInvariant where
  store := reset_store_wf
  code := rfl
  image := Image.initial_wf
  host := fun _ he => absurd he List.not_mem_nil

/-- The codes the unit itself raises are legal values of `ST.ERR` (10_state.md R21). -/
theorem legalErr_code {k : ErrKind} (h : k.ofUnit = true) : legalErr k.code = true := by
  cases k with
  | bytesLengthError => cases h
  | fileReadError => cases h
  | indexError => rfl
  | notFoundError => rfl
  | decodeError => rfl
  | imageSizeError => rfl
  | illegalCommand => rfl

/-- A command leaves a legal code, whatever code stood there before: no premise on `s.err`. -/
theorem exec_legalErr {i : Instr} {s t : State} (h : exec i s = .next t) :
    legalErr t.err = true := by
  obtain ⟨g, rfl⟩ | ⟨idx, -, -, rfl⟩ | ⟨w, e, -, -, rfl⟩ | ⟨-, rfl⟩ | ⟨-, rfl⟩ | ⟨k, hk, rfl⟩ :=
    exec_cases h
  case inr.inr.inr.inr.inr => exact legalErr_code hk
  all_goals rfl

/-- A command keeps the canonical form of the store. -/
theorem exec_keeps_store_wf {i : Instr} {s t : State} (hwf : s.rs.wf) (h : exec i s = .next t) :
    t.rs.wf := by
  obtain hrs | ⟨idx, -, hv, -, hrs⟩ | ⟨-, -, hrs⟩ := exec_store_cases h
  · rw [hrs]; exact hwf
  · rw [hrs]; exact writeGlyph_wf hwf (glyphIndex_lt hv) s.gr
  · rw [hrs]; exact importStore_wf s.image

theorem exec_keeps_inv {i : Instr} {s t : State} (hs : s.Inv) (h : exec i s = .next t) : t.Inv := by
  obtain ⟨himage, hhost⟩ := exec_keeps_image_and_host h
  exact
    { store := exec_keeps_store_wf hs.store h
      code := exec_legalErr h
      image := himage ▸ hs.image
      host := hhost ▸ hs.host }

theorem raise_keeps_inv {k : ErrKind} (hk : k.ofUnit = true) {s : State} (hs : s.Inv) :
    (raise k s).Inv where
  store := hs.store
  code := legalErr_code hk
  image := hs.image
  host := hs.host

theorem issue_keeps_inv {cmd : CmdWord} {din : Operand} {s t : State} (hs : s.Inv)
    (h : issue cmd din s = .next t) : t.Inv := by
  obtain ⟨i, -, hexec⟩ | ⟨e, -, rfl⟩ := issue_cases h
  · exact exec_keeps_inv hs hexec
  · exact raise_keeps_inv rfl hs

theorem setImage_keeps_inv {s : State} (hs : s.Inv) {img : Image} (himg : img.wf) :
    (s.setImage img).Inv where
  store := hs.store
  code := hs.code
  image := himg
  host := hs.host

/-- Reset keeps the forms of what it leaves, the image and the host's actions, and sets the rest to
the values of `State.reset`. -/
theorem resetUnit_keeps_inv {s : State} (hs : s.Inv) : (resetUnit s).Inv where
  store := reset_store_wf
  code := rfl
  image := hs.image
  host := hs.host

/-- A reaction keeps the invariant if the event is in form: only a presented image has one. -/
theorem react_keeps_inv {e : HostEvent} (he : e.wf) {s t : State} (hs : s.Inv)
    (h : react e s = .next t) : t.Inv := by
  cases e with
  | issue cmd din => exact issue_keeps_inv hs h
  | present img => rw [react_present] at h; cases h; exact setImage_keeps_inv hs he
  | reset => rw [react_reset] at h; cases h; exact resetUnit_keeps_inv hs
  | abandon cmd din => rw [react_abandon] at h; cases h; exact resetUnit_keeps_inv hs

/-- The unit to which nothing is presented waits (70_reset_and_hazards.md R141). -/
theorem step_of_host_nil {s : State} (h : s.host = []) : step s = .next s := by
  simp only [step, stepHost, h]

/-- Everything a step can do: wait, or react to the host's next action with that action taken. -/
theorem step_cases {s t : State} (h : step s = .next t) :
    (s.host = [] ∧ t = s) ∨
    (∃ e rest, s.host = e :: rest ∧ react e (s.setHost rest) = .next t) := by
  cases hhost : s.host with
  | nil =>
    rw [step_of_host_nil hhost] at h
    cases h
    exact .inl ⟨rfl, rfl⟩
  | cons e rest =>
    rw [step_of_host_cons hhost] at h
    exact .inr ⟨e, rest, rfl, h⟩

/-- Taking the first of the host's actions keeps the invariant, and that action is in form. -/
theorem take_event_keeps_inv {s : State} (hs : s.Inv) {e : HostEvent} {rest : List HostEvent}
    (h : s.host = e :: rest) : e.wf ∧ (s.setHost rest).Inv := by
  have hall : ∀ x ∈ e :: rest, x.wf := h ▸ hs.host
  obtain ⟨he, hrest⟩ := List.forall_mem_cons.mp hall
  exact ⟨he, hs.store, hs.code, hs.image, hrest⟩

/-- Settles O18: each reaction keeps the invariant, and taking the event does. -/
theorem stepKeepsInvariant : Obligations.StepKeepsInvariant := by
  intro s t hs h
  obtain ⟨-, rfl⟩ | ⟨e, rest, hhost, hreact⟩ := step_cases h
  · exact hs
  · obtain ⟨he, htaken⟩ := take_event_keeps_inv hs hhost
    exact react_keeps_inv he htaken hreact

end Sys2Proof.Machine
end

section
/-! What a command's result depends on: `RS`, `GR` and the image source, and nothing else of the
state (10_state.md R19). -/

namespace Sys2Proof.Machine

/-- What a command leaves behind: the store, the working glyph, the code, and a value for an output
register if it renders one. -/
structure Effect where
  rs : Memory
  gr : Glyph
  bg : Option (BitVec 64)
  pv : Option (BitVec 64)
  err : ErrCode

/-- The state in which an effect has taken place; an output register that is not rendered stays. -/
def Effect.apply (e : Effect) (s : State) : State :=
  { s with rs := e.rs, gr := e.gr, bg := e.bg.getD s.bg, pv := e.pv.getD s.pv, err := e.err }

/-- `f` gives the effect of the command `i` from the elements a result can depend on. -/
def GivesEffectOf (f : Memory → Glyph → Image → Effect) (i : Instr) : Prop :=
  ∀ s, exec i s = .next ((f s.rs s.gr s.image).apply s)

/-- The effect of every command is a function of `RS`, `GR` and the image source alone
(10_state.md R19). -/
theorem exists_effect (i : Instr) : ∃ f, GivesEffectOf f i := by
  cases i with
  | rdat idx =>
    cases hv : validIndex idx with
    | true => exact ⟨fun m _ _ => ⟨m, readGlyph m (glyphIndex idx), none, none, successCode⟩,
        exec_rdat_valid hv⟩
    | false => exact ⟨fun m g _ => ⟨m, g, none, none, ErrKind.indexError.code⟩, exec_rdat_invalid hv⟩
  | stat idx =>
    cases hv : validIndex idx with
    | true => exact ⟨fun m g _ => ⟨writeGlyph m (glyphIndex idx) g, g, none, none, successCode⟩,
        exec_stat_valid hv⟩
    | false => exact ⟨fun m g _ => ⟨m, g, none, none, ErrKind.indexError.code⟩, exec_stat_invalid hv⟩
  | ldg v => exact ⟨fun m _ _ => ⟨m, v, none, none, successCode⟩, exec_ldg v⟩
  | inv => exact ⟨fun m g _ => ⟨m, invertGlyph g, none, none, successCode⟩, exec_inv⟩
  | rev => exact ⟨fun m g _ => ⟨m, reverseGlyph g, none, none, successCode⟩, exec_rev⟩
  | tgl r c => exact ⟨fun m g _ => ⟨m, toggleGlyph r c g, none, none, successCode⟩, exec_tgl r c⟩
  | grid => exact ⟨fun m g _ => ⟨m, g, packGrid (toBitGrid g), none, successCode⟩, exec_grid⟩
  | prv => exact ⟨fun m g _ => ⟨m, g, none, previewCodes g, successCode⟩, exec_prv⟩
  | importFont src w h =>
    cases src with
    | notFound => exact ⟨fun m g _ => ⟨m, g, none, none, ErrKind.notFoundError.code⟩,
        exec_import_notFound w h⟩
    | undecodable => exact ⟨fun m g _ => ⟨m, g, none, none, ErrKind.decodeError.code⟩,
        exec_import_undecodable w h⟩
    | decoded =>
      cases hsize : rightSize w h with
      | true => exact ⟨fun _ g img => ⟨importStore img, g, none, none, successCode⟩,
          fun s => (exec_import_decoded hsize s).trans
            (by simp only [done, State.setErr, State.setRs, Effect.apply, Option.getD_none])⟩
      | false => exact ⟨fun m g _ => ⟨m, g, none, none, ErrKind.imageSizeError.code⟩,
          exec_import_wrong_size hsize⟩

/-- Every command completes (60_exceptions.md R131). -/
theorem exec_completes (i : Instr) (s : State) : ∃ t, exec i s = .next t := by
  obtain ⟨f, hf⟩ := exists_effect i
  exact ⟨_, hf s⟩

/-- A command answers the same whatever `ST.ERR` held: every effect overwrites it. -/
theorem exec_setErr (i : Instr) (s : State) (c : ErrCode) : exec i (s.setErr c) = exec i s := by
  obtain ⟨f, hf⟩ := exists_effect i
  rw [hf, hf]
  rfl

theorem issue_completes (cmd : CmdWord) (din : Operand) (s : State) :
    ∃ t, issue cmd din s = .next t := by
  cases hd : decode cmd din with
  | ok i => rw [issue_ok hd]; exact exec_completes i s
  | error e => rw [issue_error hd]; exact ⟨_, rfl⟩

theorem issue_setErr (cmd : CmdWord) (din : Operand) (s : State) (c : ErrCode) :
    issue cmd din (s.setErr c) = issue cmd din s := by
  cases hd : decode cmd din with
  | ok i => rw [issue_ok hd, issue_ok hd, exec_setErr]
  | error e => rw [issue_error hd, issue_error hd]; rfl

theorem issue_legalErr {cmd : CmdWord} {din : Operand} {s t : State}
    (h : issue cmd din s = .next t) : legalErr t.err = true := by
  obtain ⟨i, -, hexec⟩ | ⟨e, -, rfl⟩ := issue_cases h
  · exact exec_legalErr hexec
  · exact legalErr_code (k := .illegalCommand) rfl

/-- Settles O16: a pair completes, its code is legal, and the old code has no part in it. -/
theorem everyCommandWritesALegalCode : Obligations.EveryCommandWritesALegalCode := by
  intro cmd din s c
  obtain ⟨t, ht⟩ := issue_completes cmd din s
  exact ⟨t, ht, (issue_setErr cmd din s c).trans ht, issue_legalErr ht⟩

/-- Two states with the same inputs answer a command with the same inputs and the same code: both
answers are the same effect applied. -/
theorem exec_sameInputs {i : Instr} {s u t v : State} (hin : SameInputs s u)
    (ht : exec i s = .next t) (hv : exec i u = .next v) : SameInputs t v ∧ t.err = v.err := by
  obtain ⟨hrs, hgr, himage⟩ := hin
  obtain ⟨f, hf⟩ := exists_effect i
  rw [hf s] at ht
  rw [hf u, ← hrs, ← hgr, ← himage] at hv
  cases ht
  cases hv
  exact ⟨⟨rfl, rfl, himage⟩, rfl⟩

/-- `BG` of a GRID and `PV` of a PRV are renderings of `GR` (43_preview.md R95). -/
theorem exec_grid_bg {s t : State} (h : exec .grid s = .next t) :
    t.bg = packGrid (toBitGrid s.gr) := by
  rw [exec_grid] at h
  cases h
  rfl

theorem exec_prv_pv {s t : State} (h : exec .prv s = .next t) : t.pv = previewCodes s.gr := by
  rw [exec_prv] at h
  cases h
  rfl

/-- Settles O46: the two states get the same effect where the pair is a command, and the same code
where it is none. -/
theorem outputsNeverFlowBack : Obligations.OutputsNeverFlowBack := by
  intro cmd din s u t v hin ht hv
  cases hd : decode cmd din with
  | error e =>
    rw [issue_error hd] at ht hv
    cases ht
    cases hv
    exact ⟨⟨hin.rs, hin.gr, hin.image⟩, rfl, nofun, nofun⟩
  | ok i =>
    rw [issue_ok hd] at ht hv
    obtain ⟨hsame, herr⟩ := exec_sameInputs hin ht hv
    refine ⟨hsame, herr, ?_, ?_⟩
    · rintro ⟨⟩
      rw [exec_grid_bg ht, exec_grid_bg hv, hin.gr]
    · rintro ⟨⟩
      rw [exec_prv_pv ht, exec_prv_pv hv, hin.gr]

end Sys2Proof.Machine
end

section
/-! The store as bytes: the host's reads and writes of a range of addresses, and the layout of 2048
bytes (20_memory.md R32 to R34). -/

namespace Sys2Proof.Machine

theorem memRead_of_le (m : Memory) {a n : Nat} (h : a + n ≤ Config.nBytes) :
    memRead m a n = some ((List.range n).map fun k => readByte m (a + k)) := if_pos h

theorem memWrite_of_le (m : Memory) {a : Nat} {v : List Byte} (h : a + v.length ≤ Config.nBytes) :
    memWrite m a v = some (writeBytes m a v) := if_pos h

/-- The range just written reads back byte by byte (20_memory.md R33). -/
theorem map_readByte_writeBytes (m : Memory) (a : Nat) (v : List Byte) :
    ((List.range v.length).map fun k => readByte (writeBytes m a v) (a + k)) = v := by
  apply List.ext_getElem
  · rw [List.length_map, List.length_range]
  · intro k _ hk
    have hin : a ≤ a + k ∧ a + k < a + v.length := by omega
    rw [List.getElem_map, List.getElem_range, readByte_writeBytes, if_pos hin,
      Nat.add_sub_cancel_left, List.getD_eq_getElem v _ hk]

theorem memRead_writeBytes (m : Memory) {a : Nat} {v : List Byte}
    (h : a + v.length ≤ Config.nBytes) : memRead (writeBytes m a v) a v.length = some v := by
  rw [memRead_of_le _ h, map_readByte_writeBytes]

/-- Bytes outside the range written keep their value (20_memory.md R33). -/
theorem readByte_writeBytes_outside (m : Memory) {a k : Nat} {v : List Byte}
    (h : k < a ∨ a + v.length ≤ k) : readByte (writeBytes m a v) k = readByte m k := by
  rw [readByte_writeBytes, if_neg (by omega)]

/-- Settles O49: inside the store `MemWrite` is defined; the range written reads back, and neither
the rest of the store nor its canonical form changes. -/
theorem memReadAfterMemWrite : Obligations.MemReadAfterMemWrite := by
  intro m a v h
  have hwrite : memWrite m a v = some (writeBytes m a v) := memWrite_of_le m h
  exact ⟨writeBytes m a v, hwrite, memRead_writeBytes m h,
    fun _ hk => readByte_writeBytes_outside m hk, fun hwf => memWrite_wf hwf hwrite⟩

/-- The layout lists the store's bytes in the order of their addresses (20_memory.md R32). -/
theorem storeBytes_eq_map_readByte (m : Memory) :
    storeBytes m = (List.range Config.nBytes).map (readByte m) :=
  List.map_congr_left fun a _ => (readByte_eq_row m a).symm

@[simp] theorem length_storeBytes (m : Memory) : (storeBytes m).length = Config.nBytes := by
  rw [storeBytes, List.length_map, List.length_range]

theorem getElem?_storeBytes (m : Memory) {a : Nat} (ha : a < Config.nBytes) :
    (storeBytes m)[a]? = some (readByte m a) := by
  rw [storeBytes_eq_map_readByte, List.getElem?_map, List.getElem?_range ha, Option.map_some]

/-- Every row of every glyph of the store lies inside the layout (20_memory.md R32). -/
theorem rowAddress_lt {i r : Nat} (hi : i < Config.nGlyph) (hr : r < 8) :
    rowAddress i r < Config.nBytes := by
  simp only [rowAddress, Config.nRow, Config.nBytes, Config.nGlyph] at *; omega

/-- Settles O47: byte `8i + r` of the layout is the store's byte at that address, which is row `r`
of glyph `i`. -/
theorem byteLayoutOfTheStore : Obligations.ByteLayoutOfTheStore := by
  intro m
  refine ⟨length_storeBytes m, fun i hi r hr => ?_⟩
  have hbyte : readByte m (8 * i + r) = row (readGlyph m i) r := (row_readGlyph m i hr).symm
  exact ⟨hbyte ▸ getElem?_storeBytes m (rowAddress_lt hi hr), hbyte⟩

/-- The byte put at the highest address is the most significant. -/
theorem littleEndian_append_singleton (bs : List Byte) (b : Byte) :
    littleEndian (bs ++ [b]) = littleEndian bs + 256 ^ bs.length * b.toNat := by
  induction bs with
  | nil => simp [littleEndian]
  | cons c bs ih =>
    rw [List.cons_append, littleEndian, ih, littleEndian, List.length_cons]
    ring

/-- Row `i` of a glyph is digit `i` of its number in base 256 (10_state.md R12). -/
theorem toNat_row (g : Glyph) (i : Nat) : (row g i).toNat = g.toNat / 256 ^ i % 256 := by
  rw [row, BitVec.extractLsb'_toNat, Nat.shiftRight_eq_div_pow, Nat.pow_mul]

/-- The first `n` rows read little-endian are the glyph's low `8n` bits. -/
theorem littleEndian_rows (g : Glyph) (n : Nat) :
    littleEndian ((List.range n).map (row g)) = g.toNat % 256 ^ n := by
  induction n with
  | zero => simp [littleEndian, Nat.mod_one]
  | succ n ih =>
    rw [List.range_succ, List.map_append, List.map_singleton, littleEndian_append_singleton, ih,
      List.length_map, List.length_range, toNat_row, Nat.pow_succ, Nat.mod_mul]

theorem littleEndian_glyphBytes (g : Glyph) : littleEndian (glyphBytes g) = g.toNat := by
  rw [glyphBytes, littleEndian_rows]
  exact Nat.mod_eq_of_lt g.isLt

/-- The eight bytes at `8i` are the rows of glyph `i`, row 0 first (20_memory.md R32). -/
theorem memRead_glyph (m : Memory) {i : Nat} (hi : i < Config.nGlyph) :
    memRead m (8 * i) 8 = some (glyphBytes (readGlyph m i)) := by
  have hin : 8 * i + 8 ≤ Config.nBytes := by
    simp only [Config.nBytes, Config.nGlyph] at *; omega
  rw [memRead_of_le m hin]
  refine congrArg some (List.map_congr_left fun r hr => ?_)
  exact (row_readGlyph m i (List.mem_range.mp hr)).symm

/-- Settles O48: the eight bytes are the rows of the glyph, and its rows are the digits of its
number in base 256. -/
theorem glyphIsLittleEndian : Obligations.GlyphIsLittleEndian := by
  intro m i hi
  exact ⟨glyphBytes (readGlyph m i), memRead_glyph m hi, littleEndian_glyphBytes _⟩

end Sys2Proof.Machine
end

section
/-! The image that shows a font, and its IMPORT (44_import.md R109). -/

namespace Sys2Proof.Machine

/-- In a list of pixels of one colour, the listed keys have it. -/
theorem findPixel_map_const (l : List Nat) (p : Pixel) (k : Nat) :
    findPixel (l.map fun a => (a, p)) k = if k ∈ l then some p else none := by
  induction l with
  | nil => rfl
  | cons a l ih =>
    rw [List.map_cons, findPixel, ih]
    by_cases ha : a = k
    · simp [ha]
    · simp [ha, Ne.symm ha]

/-- A pixel of the image that shows `g` is black exactly when the glyph of its cell has the bit set
(44_import.md R104, R109). -/
theorem black_pixRead_imageOf (g : Nat → Glyph) {x y : Nat} (hx : x < Config.imgW)
    (hy : y < Config.imgH) :
    black (pixRead (imageOf g) x y) = px (g (32 * (y / 8) + x / 8)) (y % 8) (x % 8) := by
  have hkey : pixelKey x y < Config.imgW * Config.imgH := by
    simp only [pixelKey, Config.imgW, Config.imgH] at *; omega
  have hline : pixelKey x y / 256 = y := by
    simp only [pixelKey, Config.imgW] at *; omega
  have hcolumn : pixelKey x y % 256 = x := by
    simp only [pixelKey, Config.imgW] at *; omega
  rw [pixRead, imageOf, findPixel_map_const]
  simp only [List.mem_filter, List.mem_range, hkey, hline, hcolumn, true_and]
  cases px (g (32 * (y / 8) + x / 8)) (y % 8) (x % 8) with
  | true => rfl
  | false => rfl

/-- The image that shows `g` imports to the glyphs of `g` (44_import.md R109). -/
theorem importGlyph_imageOf (g : Nat → Glyph) {n : Nat} (hn : n < Config.nGlyph) :
    importGlyph (imageOf g) n = g n := by
  apply glyph_ext_pixels
  intro r hr c hc
  have hx : pixelX n c < Config.imgW ∧ pixelX n c / 8 = n % 32 ∧ pixelX n c % 8 = c := by
    simp only [pixelX, Config.nCol, Config.cellCols, Config.imgW]; omega
  have hy : pixelY n r < Config.imgH ∧ pixelY n r / 8 = n / 32 ∧ pixelY n r % 8 = r := by
    simp only [pixelY, Config.nRow, Config.cellCols, Config.imgH, Config.nGlyph] at *; omega
  obtain ⟨hxlt, hxcell, hxcol⟩ := hx
  obtain ⟨hylt, hycell, hyrow⟩ := hy
  rw [px_importGlyph _ _ hr hc, black_pixRead_imageOf g hxlt hylt, hxcell, hxcol, hycell, hyrow,
    Nat.div_add_mod]

/-- A store that holds the glyphs of `g` has the byte layout of `g` (20_memory.md R32). -/
theorem storeBytes_of_glyphs {m : Memory} {g : Nat → Glyph}
    (h : ∀ n < Config.nGlyph, readGlyph m n = g n) :
    storeBytes m = (List.range Config.nBytes).map fun a => row (g (a / 8)) (a % 8) := by
  refine List.map_congr_left fun a ha => ?_
  have ha : a < Config.nBytes := List.mem_range.mp ha
  rw [h _ (by simp only [Config.nBytes, Config.nRow, Config.nGlyph] at *; omega)]

/-- Settles O41: an IMPORT of the right size writes the image's glyphs, and those of this image are
the given ones. -/
theorem everyFontIsImportable : Obligations.EveryFontIsImportable := by
  intro g s himage
  have hsize : rightSize 256#16 64#16 = true := (rightSize_iff _ _).mpr ⟨rfl, rfl⟩
  refine ⟨_, exec_import_decoded hsize s, ?_⟩
  rw [done_rs, State.setRs_rs]
  have hglyphs : ∀ n < Config.nGlyph, readGlyph (importStore s.image) n = g n := by
    intro n hn
    rw [readGlyph_importStore _ hn, himage, importGlyph_imageOf g hn]
  exact ⟨hglyphs, storeBytes_of_glyphs hglyphs⟩

end Sys2Proof.Machine
end

section
/-! The step on an issued pair. -/

namespace Sys2Proof.Machine

theorem react_issue (cmd : CmdWord) (din : Operand) (s : State) :
    react (.issue cmd din) s = issue cmd din s := rfl

/-- Settles O9: the step takes the event off the host's list and issues the pair. -/
theorem stepRunsTheIssuedCommand : Obligations.StepRunsTheIssuedCommand := by
  intro s cmd din rest hhost
  have hstep : step s = issue cmd din (s.setHost rest) := by
    rw [step_of_host_cons hhost, react_issue]
  refine ⟨hstep, ?_, ?_⟩
  · intro i hd
    exact hstep.trans (issue_ok hd _)
  · intro e hd
    exact hstep.trans (issue_error hd _)

end Sys2Proof.Machine
end

section
/-! The decoder inverted: a pair decodes to a command exactly when it is that command's pair, up to
the bits of `DIN` that are not read (30_encoding.md R49, R52). -/

namespace Sys2Proof.Machine

@[simp] theorem signed16_ofInt {idx : Int} (h : indexEncodable idx = true) :
    signed16 (BitVec.ofInt 16 idx) = idx := by
  have hrange : -32768 ≤ idx ∧ idx ≤ 32767 := of_decide_eq_true h
  rw [signed16, BitVec.toInt_ofInt, Int.bmod_eq_of_le] <;> omega

@[simp] theorem ofInt_signed16 (v : BitVec 16) : BitVec.ofInt 16 (signed16 v) = v :=
  BitVec.ofInt_toInt

theorem indexEncodable_signed16 (v : BitVec 16) : indexEncodable (signed16 v) = true := by
  have hlow := BitVec.le_toInt v
  have hhigh := BitVec.toInt_lt (x := v)
  exact decide_eq_true ⟨by rw [signed16]; omega, by rw [signed16]; omega⟩

theorem noFields_iff (cmd : CmdWord) :
    noFields cmd = true ↔ fieldRow cmd = 0#3 ∧ fieldCol cmd = 0#3 ∧ fieldIdx cmd = 0#16 := by
  rw [noFields, Bool.and_eq_true, Bool.and_eq_true, beq_iff_eq, beq_iff_eq, beq_iff_eq, and_assoc]

theorem noRowCol_iff (cmd : CmdWord) :
    noRowCol cmd = true ↔ fieldRow cmd = 0#3 ∧ fieldCol cmd = 0#3 := by
  rw [noRowCol, Bool.and_eq_true, beq_iff_eq, beq_iff_eq]

@[simp] theorem noFields_formatC (op : BitVec 4) : noFields (formatC op 0#3 0#3 0#16) = true := by
  simp [noFields_iff]

@[simp] theorem noRowCol_formatC (op : BitVec 4) (idx : BitVec 16) :
    noRowCol (formatC op 0#3 0#3 idx) = true := by simp [noRowCol_iff]

@[simp] theorem whenUnusedZero_true (i : Instr) : whenUnusedZero true i = .ok i := rfl

theorem whenUnusedZero_eq_ok {b : Bool} {i j : Instr} :
    whenUnusedZero b i = .ok j ↔ b = true ∧ i = j := by
  cases b with
  | false => simp [whenUnusedZero]
  | true => simp [whenUnusedZero]

theorem decode_eq_ok {cmd : CmdWord} {din : Operand} {i : Instr} :
    decode cmd din = .ok i ↔ fieldZ cmd = 0#6 ∧ decodeOp cmd din = .ok i := by
  rw [decode]
  by_cases hz : fieldZ cmd = 0#6
  · simp [hz]
  · simp [hz]

/-! What each of the nine kinds of word decodes to (30_encoding.md R48, R52). -/

theorem decode_rdat (idx : BitVec 16) (din : Operand) :
    decode (formatC 0x1#4 0#3 0#3 idx) din = .ok (.rdat (signed16 idx)) := by
  simp [decode, decodeOp]

theorem decode_stat (idx : BitVec 16) (din : Operand) :
    decode (formatC 0x2#4 0#3 0#3 idx) din = .ok (.stat (signed16 idx)) := by
  simp [decode, decodeOp]

theorem decode_ldg (din : Operand) :
    decode (formatC 0x3#4 0#3 0#3 0#16) din = .ok (.ldg din) := by
  simp [decode, decodeOp]

theorem decode_inv (din : Operand) :
    decode (formatC 0x4#4 0#3 0#3 0#16) din = .ok .inv := by
  simp [decode, decodeOp]

theorem decode_rev (din : Operand) :
    decode (formatC 0x5#4 0#3 0#3 0#16) din = .ok .rev := by
  simp [decode, decodeOp]

theorem decode_tgl (row col : BitVec 3) (din : Operand) :
    decode (formatC 0x6#4 row col 0#16) din = .ok (.tgl row.toFin col.toFin) := by
  simp [decode, decodeOp]

theorem decode_grid (din : Operand) :
    decode (formatC 0x7#4 0#3 0#3 0#16) din = .ok .grid := by
  simp [decode, decodeOp]

theorem decode_prv (din : Operand) :
    decode (formatC 0x8#4 0#3 0#3 0#16) din = .ok .prv := by
  simp [decode, decodeOp]

theorem decode_import {din : Operand} {src : ImageStatus} (h : sourceOf (fieldSrc din) = some src) :
    decode (formatC 0x9#4 0#3 0#3 0#16) din
      = .ok (.importFont src (fieldW din) (fieldH din)) := by
  simp [decode, decodeOp, h]

/-- Settles O2: each field of the word reads back what the encoder put there. -/
theorem decodeOfEncodeIsIdentity : Obligations.DecodeOfEncodeIsIdentity := by
  intro i h
  cases i with
  | rdat idx => exact (decode_rdat _ _).trans (by rw [signed16_ofInt h])
  | stat idx => exact (decode_stat _ _).trans (by rw [signed16_ofInt h])
  | ldg v => exact decode_ldg v
  | inv => exact decode_inv _
  | rev => exact decode_rev _
  | tgl row col => exact decode_tgl _ _ _
  | grid => exact decode_grid _
  | prv => exact decode_prv _
  | importFont src w e =>
    have hsrc : sourceOf (fieldSrc (descriptor src w e)) = some src := by simp
    rw [encode, decode_import hsrc, fieldW_descriptor, fieldH_descriptor]

/-- A word with `Z` zero that uses `IDX` alone. -/
theorem formatC_of_noRowCol {cmd : CmdWord} {op : BitVec 4} (hz : fieldZ cmd = 0#6)
    (hop : fieldOp cmd = op) (h : noRowCol cmd = true) :
    formatC op 0#3 0#3 (fieldIdx cmd) = cmd := by
  obtain ⟨hrow, hcol⟩ := (noRowCol_iff cmd).mp h
  simpa only [hop, hrow, hcol] using formatC_of_fields hz

/-- A word with `Z` zero that uses no field but `OP`. -/
theorem formatC_of_noFields {cmd : CmdWord} {op : BitVec 4} (hz : fieldZ cmd = 0#6)
    (hop : fieldOp cmd = op) (h : noFields cmd = true) : formatC op 0#3 0#3 0#16 = cmd := by
  obtain ⟨hrow, hcol, hidx⟩ := (noFields_iff cmd).mp h
  simpa only [hop, hrow, hcol, hidx] using formatC_of_fields hz

/-- A word with `Z` zero that uses `ROW` and `COL` alone. -/
theorem formatC_of_noIdx {cmd : CmdWord} {op : BitVec 4} (hz : fieldZ cmd = 0#6)
    (hop : fieldOp cmd = op) (h : fieldIdx cmd = 0#16) :
    formatC op (fieldRow cmd) (fieldCol cmd) 0#16 = cmd := by
  simpa only [hop, h] using formatC_of_fields hz

/-- LDG reads all of `DIN`. -/
theorem sameDin_of_ldg {cmd : CmdWord} (hop : fieldOp cmd = 0x3#4) (d e : Operand) :
    sameDin cmd d e ↔ d = e := by rw [sameDin, if_pos hop]

/-- IMPORT reads the three fields of the descriptor (30_encoding.md R51). -/
theorem sameDin_of_import {cmd : CmdWord} (hop : fieldOp cmd = 0x9#4) (d e : Operand) :
    sameDin cmd d e ↔ fieldSrc d = fieldSrc e ∧ fieldW d = fieldW e ∧ fieldH d = fieldH e := by
  rw [sameDin, hop, if_neg (by decide), if_pos rfl]

/-- The other words read nothing of `DIN`. -/
theorem sameDin_of_other {cmd : CmdWord} (hldg : fieldOp cmd ≠ 0x3#4)
    (himport : fieldOp cmd ≠ 0x9#4) (d e : Operand) : sameDin cmd d e := by
  rw [sameDin, if_neg hldg, if_neg himport]; trivial

/-- The pair is one of the command's: its word, and its operand in the bits the word reads. -/
structure IsPairOf (i : Instr) (cmd : CmdWord) (din : Operand) : Prop where
  wf : i.wf = true
  word : (encode i).1 = cmd
  operand : sameDin cmd (encode i).2 din

theorem isPairOf_of_whenUnusedZero {b : Bool} {i j : Instr} {cmd : CmdWord} {din : Operand}
    (h : whenUnusedZero b j = .ok i) (hwf : j.wf = true) (hword : b = true → (encode j).1 = cmd)
    (hdin : sameDin cmd (encode j).2 din) : IsPairOf i cmd din := by
  obtain ⟨hzero, rfl⟩ := whenUnusedZero_eq_ok.mp h
  exact ⟨hwf, hword hzero, hdin⟩

/-- A pair the decoder answers with a command is one of that command's. -/
theorem isPairOf_of_decodeOp {cmd : CmdWord} {din : Operand} {i : Instr} (hz : fieldZ cmd = 0#6)
    (h : decodeOp cmd din = .ok i) : IsPairOf i cmd din := by
  have unread {op : BitVec 4} (hop : fieldOp cmd = op) (hldg : op ≠ 0x3#4) (himport : op ≠ 0x9#4)
      (d : Operand) : sameDin cmd d din := sameDin_of_other (hop ▸ hldg) (hop ▸ himport) d din
  unfold decodeOp at h
  split at h
  case h_1 hop =>
    refine isPairOf_of_whenUnusedZero h (indexEncodable_signed16 _) ?_
      (unread hop (by decide) (by decide) _)
    rw [encode, ofInt_signed16]
    exact formatC_of_noRowCol hz hop
  case h_2 hop =>
    refine isPairOf_of_whenUnusedZero h (indexEncodable_signed16 _) ?_
      (unread hop (by decide) (by decide) _)
    rw [encode, ofInt_signed16]
    exact formatC_of_noRowCol hz hop
  case h_3 hop =>
    exact isPairOf_of_whenUnusedZero h rfl (formatC_of_noFields hz hop)
      ((sameDin_of_ldg hop _ _).mpr rfl)
  case h_6 hop =>
    refine isPairOf_of_whenUnusedZero h rfl (fun hidx => ?_)
      (unread hop (by decide) (by decide) _)
    exact formatC_of_noIdx hz hop (beq_iff_eq.mp hidx)
  case h_9 hop =>
    split at h
    case isTrue hzero =>
      split at h
      case h_1 src hsrc =>
        cases h
        refine ⟨rfl, formatC_of_noFields hz hop hzero, (sameDin_of_import hop _ _).mpr ?_⟩
        rw [encode, fieldSrc_descriptor, fieldW_descriptor, fieldH_descriptor,
          sourceBits_of_sourceOf hsrc]
        exact ⟨rfl, rfl, rfl⟩
      case h_2 => cases h
    case isFalse => cases h
  case h_10 => cases h
  all_goals
    next hop =>
      exact isPairOf_of_whenUnusedZero h rfl (formatC_of_noFields hz hop)
        (unread hop (by decide) (by decide) _)

/-- Settles O3: the fields the command uses and the zero fields make up the whole word. -/
theorem encodeOfDecodeIsIdentity : Obligations.EncodeOfDecodeIsIdentity := by
  intro cmd din i h
  obtain ⟨hz, hop⟩ := decode_eq_ok.mp h
  obtain ⟨hwf, hword, hoperand⟩ := isPairOf_of_decodeOp hz hop
  exact ⟨hwf, hword, hoperand⟩

/-- The decoder reads nothing of `DIN` but what the word reads (30_encoding.md R51). -/
theorem decode_eq_of_sameDin {cmd : CmdWord} {d e : Operand} (h : sameDin cmd d e) :
    decode cmd d = decode cmd e := by
  by_cases hldg : fieldOp cmd = 0x3#4
  · rw [(sameDin_of_ldg hldg d e).mp h]
  by_cases himport : fieldOp cmd = 0x9#4
  · obtain ⟨hsrc, hw, hh⟩ := (sameDin_of_import himport d e).mp h
    simp only [decode, decodeOp, himport, hsrc, hw, hh]
  · have hop : decodeOp cmd d = decodeOp cmd e := by
      unfold decodeOp
      split
      case h_3 hop => exact absurd hop hldg
      case h_9 hop => exact absurd hop himport
      all_goals rfl
    rw [decode, decode, hop]

/-- Settles O8: what issuing a pair does depends on `DIN` through the decoder alone. -/
theorem unreadDinHasNoEffect : Obligations.UnreadDinHasNoEffect := by
  intro cmd d e s h
  rw [issue, issue, decode_eq_of_sameDin h]

/-- The pairs that decode to a command are that command's, and no others. -/
theorem decode_eq_ok_iff_isPairOf {cmd : CmdWord} {din : Operand} {i : Instr} :
    decode cmd din = .ok i ↔ IsPairOf i cmd din := by
  constructor
  · intro h
    obtain ⟨hwf, hword, hoperand⟩ := encodeOfDecodeIsIdentity cmd din i h
    exact ⟨hwf, hword, hoperand⟩
  · rintro ⟨hwf, rfl, hoperand⟩
    rw [← decode_eq_of_sameDin hoperand]
    exact decodeOfEncodeIsIdentity i hwf

end Sys2Proof.Machine
end

section
/-! The opcode map as the decoder's table: a word matches a row exactly when it is the word of a
command of that row (30_encoding.md R48). -/

namespace Sys2Proof.Machine

@[simp] theorem fieldOp_and (a b : CmdWord) : fieldOp (a &&& b) = fieldOp a &&& fieldOp b :=
  BitVec.extractLsb'_and ..

@[simp] theorem fieldZ_and (a b : CmdWord) : fieldZ (a &&& b) = fieldZ a &&& fieldZ b :=
  BitVec.extractLsb'_and ..

@[simp] theorem fieldRow_and (a b : CmdWord) : fieldRow (a &&& b) = fieldRow a &&& fieldRow b :=
  BitVec.extractLsb'_and ..

@[simp] theorem fieldCol_and (a b : CmdWord) : fieldCol (a &&& b) = fieldCol a &&& fieldCol b :=
  BitVec.extractLsb'_and ..

@[simp] theorem fieldIdx_and (a b : CmdWord) : fieldIdx (a &&& b) = fieldIdx a &&& fieldIdx b :=
  BitVec.extractLsb'_and ..

/-! A field the mask keeps whole is the masked word's field. -/

section

variable {cmd mask : CmdWord} {op : BitVec 4} {r c : BitVec 3} {idx : BitVec 16}

theorem fieldOp_of_masked (h : cmd &&& mask = formatC op r c idx)
    (hm : fieldOp mask = BitVec.allOnes 4) : fieldOp cmd = op := by
  simpa only [fieldOp_and, hm, BitVec.and_allOnes, fieldOp_formatC] using congrArg fieldOp h

theorem fieldZ_of_masked (h : cmd &&& mask = formatC op r c idx)
    (hm : fieldZ mask = BitVec.allOnes 6) : fieldZ cmd = 0#6 := by
  simpa only [fieldZ_and, hm, BitVec.and_allOnes, fieldZ_formatC] using congrArg fieldZ h

theorem fieldRow_of_masked (h : cmd &&& mask = formatC op r c idx)
    (hm : fieldRow mask = BitVec.allOnes 3) : fieldRow cmd = r := by
  simpa only [fieldRow_and, hm, BitVec.and_allOnes, fieldRow_formatC] using congrArg fieldRow h

theorem fieldCol_of_masked (h : cmd &&& mask = formatC op r c idx)
    (hm : fieldCol mask = BitVec.allOnes 3) : fieldCol cmd = c := by
  simpa only [fieldCol_and, hm, BitVec.and_allOnes, fieldCol_formatC] using congrArg fieldCol h

theorem fieldIdx_of_masked (h : cmd &&& mask = formatC op r c idx)
    (hm : fieldIdx mask = BitVec.allOnes 16) : fieldIdx cmd = idx := by
  simpa only [fieldIdx_and, hm, BitVec.and_allOnes, fieldIdx_formatC] using congrArg fieldIdx h

end

/-- The mask of RDAT and STAT leaves `IDX` free (30_encoding.md R48). -/
theorem formatC_of_indexMask {cmd : CmdWord} {op : BitVec 4}
    (h : cmd &&& 0xFFFF0000#32 = formatC op 0#3 0#3 0#16) :
    formatC op 0#3 0#3 (fieldIdx cmd) = cmd :=
  formatC_of_noRowCol (fieldZ_of_masked h rfl) (fieldOp_of_masked h rfl)
    ((noRowCol_iff cmd).mpr ⟨fieldRow_of_masked h rfl, fieldCol_of_masked h rfl⟩)

/-- The mask of TGL leaves `ROW` and `COL` free (30_encoding.md R48). -/
theorem formatC_of_pixelMask {cmd : CmdWord} {op : BitVec 4}
    (h : cmd &&& 0xFFC0FFFF#32 = formatC op 0#3 0#3 0#16) :
    formatC op (fieldRow cmd) (fieldCol cmd) 0#16 = cmd :=
  formatC_of_noIdx (fieldZ_of_masked h rfl) (fieldOp_of_masked h rfl) (fieldIdx_of_masked h rfl)

/-- The mask of every other row leaves nothing free (30_encoding.md R48). -/
theorem formatC_of_fullMask {cmd : CmdWord} {op : BitVec 4}
    (h : cmd &&& 0xFFFFFFFF#32 = formatC op 0#3 0#3 0#16) : formatC op 0#3 0#3 0#16 = cmd :=
  h.symm.trans BitVec.and_allOnes

theorem hits_iff (r : OpRow) (cmd : CmdWord) : r.hits cmd = true ↔ cmd &&& r.mask = r.value :=
  beq_iff_eq

theorem exists_sourceOf {v : BitVec 2} (h : v ≠ 3#2) : ∃ src, sourceOf v = some src := by
  have hall : ∀ v : BitVec 2, v ≠ 3#2 → (sourceOf v).isSome = true := by decide
  exact Option.isSome_iff_exists.mp (hall v h)

/-- A word that matches a row is decoded as the row's command, an IMPORT with `SRC = 3` apart. -/
theorem exists_decode_of_hits {r : OpRow} (hr : r ∈ opcodeMap) {cmd : CmdWord}
    (h : r.hits cmd = true) {din : Operand} (hsrc : r.mnemonic = "IMPORT" → fieldSrc din ≠ 3#2) :
    ∃ i, decode cmd din = .ok i ∧ i.mnemonic = r.mnemonic := by
  rw [hits_iff] at h
  simp only [opcodeMap, List.mem_cons, List.not_mem_nil, or_false] at hr
  rcases hr with rfl | rfl | rfl | rfl | rfl | rfl | rfl | rfl | rfl
  · exact ⟨_, formatC_of_indexMask (op := 0x1#4) h ▸ decode_rdat _ din, rfl⟩
  · exact ⟨_, formatC_of_indexMask (op := 0x2#4) h ▸ decode_stat _ din, rfl⟩
  · exact ⟨_, formatC_of_fullMask (op := 0x3#4) h ▸ decode_ldg din, rfl⟩
  · exact ⟨_, formatC_of_fullMask (op := 0x4#4) h ▸ decode_inv din, rfl⟩
  · exact ⟨_, formatC_of_fullMask (op := 0x5#4) h ▸ decode_rev din, rfl⟩
  · exact ⟨_, formatC_of_pixelMask (op := 0x6#4) h ▸ decode_tgl _ _ din, rfl⟩
  · exact ⟨_, formatC_of_fullMask (op := 0x7#4) h ▸ decode_grid din, rfl⟩
  · exact ⟨_, formatC_of_fullMask (op := 0x8#4) h ▸ decode_prv din, rfl⟩
  · obtain ⟨src, hlegal⟩ := exists_sourceOf (hsrc rfl)
    exact ⟨_, formatC_of_fullMask (op := 0x9#4) h ▸ decode_import hlegal, rfl⟩

theorem encode_hits (i : Instr) :
    ∃ r ∈ opcodeMap, r.mnemonic = i.mnemonic ∧ r.hits (encode i).1 = true :=
  match i with
  | .rdat idx => Laws.EncodeMatchesRow.rdat idx
  | .stat idx => Laws.EncodeMatchesRow.stat idx
  | .ldg v => Laws.EncodeMatchesRow.ldg v
  | .inv => Laws.EncodeMatchesRow.inv
  | .rev => Laws.EncodeMatchesRow.rev
  | .tgl row col => Laws.EncodeMatchesRow.tgl row col
  | .grid => Laws.EncodeMatchesRow.grid
  | .prv => Laws.EncodeMatchesRow.prv
  | .importFont src w h => Laws.EncodeMatchesRow.importFont src w h

theorem eq_of_mnemonic_eq {p q : OpRow} (hp : p ∈ opcodeMap) (hq : q ∈ opcodeMap)
    (h : p.mnemonic = q.mnemonic) : p = q :=
  List.inj_on_of_nodup_map (f := OpRow.mnemonic) (by decide) hp hq h

theorem fieldSrc_of_decode_import {cmd : CmdWord} {din : Operand} {i : Instr}
    (h : decode cmd din = .ok i) (hi : i.mnemonic = "IMPORT") : fieldSrc din ≠ 3#2 := by
  obtain ⟨-, rfl, hoperand⟩ := decode_eq_ok_iff_isPairOf.mp h
  cases i with
  | importFont src w e =>
    obtain ⟨hsrc, -, -⟩ := (sameDin_of_import (fieldOp_formatC ..) _ _).mp hoperand
    rw [← hsrc, encode, fieldSrc_descriptor]
    cases src <;> decide
  | _ => simp [Instr.mnemonic] at hi

/-- A decoded word matches the row of its command. -/
theorem hits_of_decode {cmd : CmdWord} {din : Operand} {i : Instr} (h : decode cmd din = .ok i)
    {r : OpRow} (hr : r ∈ opcodeMap) (hname : i.mnemonic = r.mnemonic) : r.hits cmd = true := by
  obtain ⟨-, rfl, -⟩ := decode_eq_ok_iff_isPairOf.mp h
  obtain ⟨q, hq, hqname, hqhits⟩ := encode_hits i
  rwa [eq_of_mnemonic_eq hr hq (hname.symm.trans hqname.symm)]

/-- Settles O4: the encoder's words match their rows, and the words that match a row are in the
form its command is decoded from. -/
theorem decodeAgreesWithOpcodeMap : Obligations.DecodeAgreesWithOpcodeMap := by
  intro cmd din r hr
  constructor
  · rintro ⟨i, hd, hname⟩
    exact ⟨hits_of_decode hd hr hname,
      fun ⟨himport, hsrc⟩ => fieldSrc_of_decode_import hd (hname.trans himport) hsrc⟩
  · rintro ⟨hhits, hsrc⟩
    exact exists_decode_of_hits hr hhits fun himport hreserved => hsrc ⟨himport, hreserved⟩

/-- The words that match a row are the words of commands. -/
theorem exists_encode_of_hits {r : OpRow} (hr : r ∈ opcodeMap) {cmd : CmdWord}
    (h : r.hits cmd = true) : ∃ i : Instr, (encode i).1 = cmd := by
  have hlegal : fieldSrc 0#64 ≠ 3#2 := by decide
  obtain ⟨i, hd, -⟩ := exists_decode_of_hits hr h fun _ => hlegal
  exact ⟨i, (decode_eq_ok_iff_isPairOf.mp hd).word⟩

/-- Settles O5: with the same operand, the command of both rows is the one the word decodes to. -/
theorem opcodeMapRowsAreDisjoint : Obligations.OpcodeMapRowsAreDisjoint := by
  intro cmd p hp q hq hphits hqhits
  have hlegal : fieldSrc 0#64 ≠ 3#2 := by decide
  obtain ⟨i, hi, hiname⟩ := exists_decode_of_hits hp hphits fun _ => hlegal
  obtain ⟨j, hj, hjname⟩ := exists_decode_of_hits hq hqhits fun _ => hlegal
  obtain rfl : i = j := Except.ok.inj (hi.symm.trans hj)
  exact eq_of_mnemonic_eq hp hq (hiname.symm.trans hjname)

theorem hits_eq_false_of_not_encode {cmd : CmdWord} (h : ∀ i : Instr, (encode i).1 ≠ cmd) :
    ∀ r ∈ opcodeMap, r.hits cmd = false := by
  intro r hr
  by_contra hhits
  obtain ⟨i, hi⟩ := exists_encode_of_hits hr (eq_true_of_ne_false hhits)
  exact h i hi

/-- A word that matches no row is no command, whatever its operand. -/
theorem decode_error_of_no_hits {cmd : CmdWord} (h : ∀ r ∈ opcodeMap, r.hits cmd = false)
    (din : Operand) : ∃ e, decode cmd din = .error e := by
  cases hd : decode cmd din with
  | error e => exact ⟨e, rfl⟩
  | ok i =>
    obtain ⟨-, rfl, -⟩ := decode_eq_ok_iff_isPairOf.mp hd
    obtain ⟨r, hr, -, hhits⟩ := encode_hits i
    exact absurd hhits (Bool.eq_false_iff.mp (h r hr))

/-! The fields of a command's word (30_encoding.md R49, R50). -/

theorem reservedWord_encode (i : Instr) : reservedWord (encode i).1 = false := by
  cases i <;> simp [reservedWord, encode]

theorem noRowCol_encode (i : Instr)
    (h : fieldOp (encode i).1 = 0x1#4 ∨ fieldOp (encode i).1 = 0x2#4) :
    noRowCol (encode i).1 = true := by
  cases i with
  | tgl row col => simp [encode] at h
  | _ => exact noRowCol_formatC _ _

theorem fieldIdx_encode_tgl (i : Instr) (h : fieldOp (encode i).1 = 0x6#4) :
    fieldIdx (encode i).1 = 0#16 := by
  cases i with
  | rdat idx => simp [encode] at h
  | stat idx => simp [encode] at h
  | _ => exact fieldIdx_formatC _ _ _ _

theorem noFields_encode (i : Instr)
    (h : fieldOp (encode i).1 = 0x3#4 ∨ fieldOp (encode i).1 = 0x4#4 ∨
      fieldOp (encode i).1 = 0x5#4 ∨ fieldOp (encode i).1 = 0x7#4 ∨
      fieldOp (encode i).1 = 0x8#4 ∨ fieldOp (encode i).1 = 0x9#4) :
    noFields (encode i).1 = true := by
  cases i with
  | rdat idx => simp [encode] at h
  | stat idx => simp [encode] at h
  | tgl row col => simp [encode] at h
  | _ => exact noFields_formatC _

/-- Settles O6: a word that matches no row is decoded as an error, and a word with one of the listed
defects is not the word of any command. -/
theorem illegalWordSetsCodeSevenOnly : Obligations.IllegalWordSetsCodeSevenOnly := by
  refine ⟨?_, ?_, ?_, ?_, ?_, ?_⟩
  · intro cmd din s h
    obtain ⟨e, he⟩ := decode_error_of_no_hits h din
    exact issue_error he s
  · intro cmd h
    refine hits_eq_false_of_not_encode fun i hi => ?_
    rw [← hi, reservedWord_encode] at h
    cases h
  · intro cmd hop hrowcol
    refine hits_eq_false_of_not_encode fun i hi => ?_
    subst hi
    obtain ⟨hrow, hcol⟩ := (noRowCol_iff _).mp (noRowCol_encode i hop)
    exact hrowcol.elim (absurd hrow) (absurd hcol)
  · intro cmd hop hidx
    refine hits_eq_false_of_not_encode fun i hi => ?_
    subst hi
    exact hidx (fieldIdx_encode_tgl i hop)
  · intro cmd hop hfields
    refine hits_eq_false_of_not_encode fun i hi => ?_
    subst hi
    obtain ⟨hrow, hcol, hidx⟩ := (noFields_iff _).mp (noFields_encode i hop)
    exact hfields.elim (absurd hrow) (Or.elim · (absurd hcol) (absurd hidx))
  · decide

/-- Settles O1: the decoder evaluated on each word. -/
theorem writtenWordsDecode : Obligations.WrittenWordsDecode :=
  ⟨rfl, rfl, rfl, rfl, rfl, rfl, rfl, rfl, rfl, rfl⟩

end Sys2Proof.Machine
end

section
/-! The pseudo-instructions run command by command: on a valid index to their end, on any other up
to the command that has the index (30_encoding.md R55, 41_container.md R75). -/

namespace Sys2Proof.Machine

theorem validIndex_of_range {idx : Int} (h0 : 0 ≤ idx) (h1 : idx ≤ 255) : validIndex idx = true :=
  (validIndex_iff idx).mpr ⟨h0, h1⟩

theorem validIndex_eq_false {idx : Int} (h : idx < 0 ∨ 255 < idx) : validIndex idx = false := by
  rw [← Bool.not_eq_true, validIndex_iff]; omega

theorem px_xor (g h : Glyph) (i : Nat) {j : Nat} (hj : j < 8) :
    px (g ^^^ h) i j = (px g i j ^^ px h i j) := by
  rw [px_eq_getLsbD _ i hj, px_eq_getLsbD _ i hj, px_eq_getLsbD _ i hj, BitVec.getLsbD_xor]

/-- Bit `8r + c` alone is pixel `(r, c)` alone (10_state.md R12). -/
theorem px_singleBit (r c : Fin 8) (i : Nat) {j : Nat} (hj : j < 8) :
    px (1#64 <<< (8 * r.val + c.val)) i j = decide (i = r.val ∧ j = c.val) := by
  rw [px_eq_getLsbD _ i hj, ← BitVec.twoPow_eq, BitVec.getLsbD_twoPow, ← Bool.decide_and,
    decide_eq_decide]
  omega

theorem getLsbD_byte_singleBit (c : Fin 8) (j : Nat) :
    (0x01#8 <<< c.val).getLsbD j = decide (j = c.val) := by
  rw [← BitVec.twoPow_eq, BitVec.getLsbD_twoPow, ← Bool.decide_and, decide_eq_decide]
  omega

/-- The XOR on the row is the XOR on the packed glyph (40_transforms.md R63). -/
theorem toggleGlyph_eq_xor (r c : Fin 8) (g : Glyph) :
    toggleGlyph r.val c.val g = g ^^^ (1#64 <<< (8 * r.val + c.val)) := by
  apply glyph_ext_pixels
  intro i hi j hj
  rw [toggleGlyph, px_ofRows _ hi, px_xor _ _ i hj, px_singleBit r c i hj]
  by_cases hrow : i = r.val
  · simp only [hrow, if_true, true_and, BitVec.getLsbD_xor, getLsbD_byte_singleBit, px]
  · simp only [hrow, if_false, false_and, decide_false, Bool.xor_false, px]

/-- The state after the glyph `g` was edited in `GR` and stored at `idx`. -/
def storedAt (idx : Int) (g : Glyph) (s : State) : State :=
  done ((s.setGr g).setRs (writeGlyph s.rs (glyphIndex idx) g))

theorem readGlyph_storedAt (idx : Int) (g : Glyph) (s : State) (k : Nat) :
    readGlyph (storedAt idx g s).rs k = if k = idx.toNat then g else readGlyph s.rs k :=
  readGlyph_writeGlyph _ _ _ _

/-- A command that succeeds, with the state it ends in, lets the sequence go on. -/
theorem runCommands_done {i : Instr} {s t : State} (h : exec i s = .next (done t))
    (rest : List Instr) : runCommands (i :: rest) s = runCommands rest (done t) :=
  runCommands_of_success h rfl rest

/-- Storing the working glyph at a valid index. -/
theorem runCommands_stat {idx : Int} (hv : validIndex idx = true) (s : State) :
    runCommands [.stat idx] s = .next (storedAt idx s.gr s) :=
  runCommands_done (exec_stat_valid hv s) []

/-- Read, edit in place, store: INVERT, MIRROR, TOGGLE (41_container.md R75). -/
theorem runCommands_rdat_edit_stat {idx : Int} (hv : validIndex idx = true) {i : Instr}
    {f : Glyph → Glyph} (hf : ∀ s, exec i s = .next (done (s.setGr (f s.gr)))) (s : State) :
    runCommands [.rdat idx, i, .stat idx] s
      = .next (storedAt idx (f (readGlyph s.rs (glyphIndex idx))) s) := by
  rw [runCommands_done (exec_rdat_valid hv s), runCommands_done (hf _), runCommands_stat hv]
  rfl

/-- Load, store: SETAT, CLEAR, PASTE (41_container.md R75). -/
theorem runCommands_ldg_stat {idx : Int} (hv : validIndex idx = true) (g : Glyph) (s : State) :
    runCommands [.ldg g, .stat idx] s = .next (storedAt idx g s) := by
  rw [runCommands_done (exec_ldg g s), runCommands_stat hv]
  rfl

/-- Settles O55: every composition ends with its glyph edited in `GR` and stored. -/
theorem editingCompositions : Obligations.EditingCompositions := by
  intro idx g r c s h0 h1 q hq
  have hv : validIndex idx = true := validIndex_of_range h0 h1
  simp only [List.mem_cons, List.not_mem_nil, or_false] at hq
  have hrun : runPseudo q.1 s = .next (storedAt idx q.2 s) := by
    rcases hq with rfl | rfl | rfl | rfl | rfl | rfl
    · exact runCommands_rdat_edit_stat hv exec_inv s
    · exact runCommands_rdat_edit_stat hv exec_rev s
    · rw [← toggleGlyph_eq_xor]
      exact runCommands_rdat_edit_stat hv (exec_tgl r c) s
    · exact runCommands_ldg_stat hv 0#64 s
    · exact runCommands_ldg_stat hv g s
    · exact runCommands_ldg_stat hv g s
  refine ⟨_, hrun, ?_, rfl, fun k hk => ?_, rfl, rfl, rfl⟩
  · rw [readGlyph_storedAt, if_pos rfl]
  · rw [readGlyph_storedAt, if_neg hk]

/-- A sequence that begins with an RDAT of an index out of range ends there. -/
theorem runCommands_rdat_invalid {idx : Int} (hv : validIndex idx = false) (rest : List Instr)
    (s : State) : runCommands (.rdat idx :: rest) s = .next (raise .indexError s) :=
  runCommands_of_failure (exec_rdat_invalid hv s)
    (by decide : ErrKind.indexError.code ≠ successCode) rest

/-- A load goes through, and the store at an index out of range fails. -/
theorem runCommands_ldg_stat_invalid {idx : Int} (hv : validIndex idx = false) (g : Glyph)
    (s : State) :
    runCommands [.ldg g, .stat idx] s = .next (raise .indexError (done (s.setGr g))) := by
  rw [runCommands_done (exec_ldg g s)]
  exact runCommands_of_failure (exec_stat_invalid hv _)
    (by decide : ErrKind.indexError.code ≠ successCode) []

theorem callPseudo_of_done {p : Pseudo} {s t : State} (h : runPseudo p s = .next (done t)) :
    callPseudo p s = .next (done t, p.reading (done t)) := by
  rw [callPseudo_of_next h, Pseudo.result_of_success p rfl]

theorem callPseudo_of_raise {p : Pseudo} {k : ErrKind} {s t : State}
    (h : runPseudo p s = .next (raise k t)) :
    callPseudo p s = .next (raise k t, .failed k.code) := by
  have hk : k.code ≠ successCode := by cases k <;> decide
  rw [callPseudo_of_next h, Pseudo.result_of_failure p hk, raise_err]

theorem runPseudo_readat {idx : Int} (hv : validIndex idx = true) (s : State) :
    runPseudo (.readat idx) s = .next (done (s.setGr (readGlyph s.rs (glyphIndex idx)))) :=
  runCommands_done (exec_rdat_valid hv s) []

theorem runPseudo_showGlyph {idx : Int} (hv : validIndex idx = true) (s : State) :
    runPseudo (.showGlyph idx) s =
      .next (done ((s.setGr (readGlyph s.rs (glyphIndex idx))).setPv
        (previewCodes (readGlyph s.rs (glyphIndex idx))))) := by
  rw [runPseudo, Pseudo.expand, runCommands_done (exec_rdat_valid hv s),
    runCommands_done (exec_prv _)]
  rfl

theorem runPseudo_editview {idx : Int} (hv : validIndex idx = true) (s : State) :
    runPseudo (.editview idx) s =
      .next (done ((s.setGr (readGlyph s.rs (glyphIndex idx))).setBg
        (readGlyph s.rs (glyphIndex idx)))) := by
  rw [runPseudo, Pseudo.expand, runCommands_done (exec_rdat_valid hv s),
    runCommands_done (exec_grid _), packGrid_toBitGrid]
  rfl

/-- Settles O56: the report is the closing read of the state the sequence ends in, or the code of
the command it stopped at. -/
theorem pseudoInstructionsReport : Obligations.PseudoInstructionsReport := by
  intro idx g r c s
  constructor
  · rintro h0 h1 e rfl
    have hv : validIndex idx = true := validIndex_of_range h0 h1
    exact ⟨callPseudo_of_done (runPseudo_readat hv s),
      callPseudo_of_done (runPseudo_showGlyph hv s), callPseudo_of_done (runPseudo_editview hv s)⟩
  · intro hrange
    have hv : validIndex idx = false := validIndex_eq_false hrange
    constructor
    · intro p hp
      have hrun : runPseudo p s = .next (raise .indexError s) := by
        simp only [List.mem_cons, List.not_mem_nil, or_false] at hp
        rcases hp with rfl | rfl | rfl | rfl | rfl | rfl <;> exact runCommands_rdat_invalid hv _ s
      exact ⟨hrun, callPseudo_of_raise hrun⟩
    · intro q hq
      have hrun : runPseudo q.1 s = .next (raise .indexError (done (s.setGr q.2))) := by
        simp only [List.mem_cons, List.not_mem_nil, or_false] at hq
        rcases hq with rfl | rfl | rfl <;> exact runCommands_ldg_stat_invalid hv _ s
      exact ⟨hrun, callPseudo_of_raise hrun⟩

end Sys2Proof.Machine
end

section
/-! The assembler: what each reader answers on the rows of 30_encoding.md R54, and the words the
rows stand for. -/

namespace Sys2Proof.Machine

/-! ### The words as R54 writes them -/

theorem setWidth_ofInt_32 (idx : Int) :
    (BitVec.ofInt 32 idx).setWidth 16 = BitVec.ofInt 16 idx := by
  apply BitVec.eq_of_toNat_eq
  rw [BitVec.toNat_setWidth, BitVec.toNat_ofInt, BitVec.toNat_ofInt]
  omega

/-- `op<<28 OR (idx AND 0xFFFF)` (30_encoding.md R54). -/
theorem formatC_index (op : BitVec 4) (idx : Int) :
    formatC op 0#3 0#3 (BitVec.ofInt 16 idx)
      = formatC op 0#3 0#3 0#16 ||| (BitVec.ofInt 32 idx &&& 0xFFFF#32) := by
  rw [← setWidth_ofInt_32]
  apply BitVec.eq_of_getLsbD_eq
  intro k hk
  rw [BitVec.getLsbD_or, BitVec.getLsbD_and, getLsbD_formatC, getLsbD_formatC,
    show 0xFFFF#32 = (BitVec.allOnes 16).setWidth 32 from rfl, BitVec.getLsbD_setWidth,
    BitVec.getLsbD_setWidth, BitVec.getLsbD_allOnes]
  by_cases hidx : k < 16
  · simp [hidx, hk]
  · simp [hidx]

/-- `op<<28 OR row<<19 OR col<<16` (30_encoding.md R54). -/
theorem formatC_pixel : ∀ r c : Fin 8, formatC 0x6#4 (BitVec.ofFin r) (BitVec.ofFin c) 0#16
    = 0x60000000#32 ||| (BitVec.ofNat 32 r.val <<< 19) ||| (BitVec.ofNat 32 c.val <<< 16) := by
  decide

theorem getLsbD_setWidth_shiftLeft {n : Nat} (v : BitVec n) (j : Nat) {k : Nat} (hk : k < 64) :
    (v.setWidth 64 <<< j).getLsbD k = (decide (j ≤ k) && v.getLsbD (k - j)) := by
  have hj : k - j < 64 := by omega
  simp only [BitVec.getLsbD_shiftLeft, BitVec.getLsbD_setWidth, hk, hj, decide_true, Bool.true_and,
    ← decide_not, Nat.not_lt]

/-- `src OR w<<16 OR h<<32` (30_encoding.md R54). -/
theorem descriptor_eq_or (src : ImageStatus) (w h : BitVec 16) :
    descriptor src w h
      = (sourceBits src).setWidth 64 ||| (w.setWidth 64 <<< 16) ||| (h.setWidth 64 <<< 32) := by
  apply BitVec.eq_of_getLsbD_eq
  intro k hk
  have hsrc : 2 ≤ k → (sourceBits src).getLsbD k = false := BitVec.getLsbD_of_ge _ _
  have hw : 16 ≤ k - 16 → w.getLsbD (k - 16) = false := BitVec.getLsbD_of_ge _ _
  have hh : 16 ≤ k - 32 → h.getLsbD (k - 32) = false := BitVec.getLsbD_of_ge _ _
  rw [getLsbD_descriptor, BitVec.getLsbD_or, BitVec.getLsbD_or, getLsbD_setWidth_shiftLeft _ _ hk,
    getLsbD_setWidth_shiftLeft _ _ hk, BitVec.getLsbD_setWidth]
  grind

/-! ### What a line that assembles stands for -/

theorem readIndex_encodable {cs : List Char} {idx : Int} (h : readIndex cs = some idx) :
    indexEncodable idx = true := by
  unfold readIndex at h
  split at h
  · split at h
    · next hidx => rwa [← Option.some.inj h]
    · cases h
  · cases h

theorem readPlain_wf {i j : Instr} {cs : List Char} (h : readPlain i cs = some j)
    (hi : i.wf = true) : j.wf = true := by
  rw [readPlain] at h
  split at h
  · rwa [← Option.some.inj h]
  · cases h

theorem readToggle_wf {cs : List Char} {i : Instr} (h : readToggle cs = some i) :
    i.wf = true := by
  unfold readToggle at h
  split at h
  · rw [← Option.some.inj h, Instr.wf]
  · cases h

theorem readImport_wf {cs : List Char} {i : Instr} (h : readImport cs = some i) :
    i.wf = true := by
  unfold readImport at h
  split at h
  · split at h
    · obtain ⟨src, -, rfl⟩ := Option.map_eq_some_iff.mp h
      rfl
    · cases h
  · cases h

theorem eq_some_of_ite {p : Prop} [Decidable p] {a b : Option Instr} {i : Instr}
    (h : (if p then a else b) = some i) : a = some i ∨ b = some i := by
  split at h
  · exact .inl h
  · exact .inr h

/-- The commands the assembler reads are well-formed: only an index can be too large for its field,
and its reader checks it. -/
theorem readCommand_wf {word rest : List Char} {i : Instr} (h : readCommand word rest = some i) :
    i.wf = true := by
  have hindex {f : Int → Instr} (hf : ∀ idx, (f idx).wf = indexEncodable idx)
      (h : (readIndex rest).map f = some i) : i.wf = true := by
    obtain ⟨idx, hidx, rfl⟩ := Option.map_eq_some_iff.mp h
    rw [hf, readIndex_encodable hidx]
  unfold readCommand at h
  obtain hrdat | h := eq_some_of_ite h
  · exact hindex (fun _ => rfl) hrdat
  obtain hstat | h := eq_some_of_ite h
  · exact hindex (fun _ => rfl) hstat
  obtain hldg | h := eq_some_of_ite h
  · obtain ⟨g, -, rfl⟩ := Option.map_eq_some_iff.mp hldg
    rfl
  obtain hinv | h := eq_some_of_ite h
  · exact readPlain_wf hinv rfl
  obtain hrev | h := eq_some_of_ite h
  · exact readPlain_wf hrev rfl
  obtain htgl | h := eq_some_of_ite h
  · exact readToggle_wf htgl
  obtain hgrid | h := eq_some_of_ite h
  · exact readPlain_wf hgrid rfl
  obtain hprv | h := eq_some_of_ite h
  · exact readPlain_wf hprv rfl
  obtain himport | h := eq_some_of_ite h
  · exact readImport_wf himport
  cases h

theorem assembleLine_wf {line : List Char} {i : Instr} (h : assembleLine line = .command i) :
    i.wf = true := by
  unfold assembleLine at h
  split at h
  · cases h
  · cases hread : readCommand _ _ with
    | none => rw [hread] at h; cases h
    | some j =>
      rw [hread] at h
      cases h
      exact readCommand_wf hread

/-- Every line that assembles encodes as a pair that decodes to its command (30_encoding.md R52). -/
theorem assembleWords_decode {line : List Char} {i : Instr} (h : assembleLine line = .command i) :
    ∃ w, assembleWords line = some w ∧ decode w.1 w.2 = .ok i :=
  ⟨encode i, by rw [assembleWords, h], decodeOfEncodeIsIdentity i (assembleLine_wf h)⟩

/-! ### The rows of R54 -/

/-- Mnemonics are written in capitals, and a capital ends no word, no operand and no line. -/
theorem plain_of_isUpper {w : List Char} (h : w.all Char.isUpper = true) : ∀ c ∈ w, Plain c := by
  intro c hc
  have hupper : c.isUpper = true := List.all_eq_true.mp h c hc
  have hne : ∀ d : Char, d.isUpper = false → c ≠ d := by
    rintro d hd rfl
    rw [hupper] at hd
    cases hd
  refine ⟨?_, hne ',' rfl, hne ';' rfl⟩
  rw [isBlankChar, beq_false_of_ne (hne ' ' rfl), beq_false_of_ne (hne '\t' rfl), Bool.or_false]

/-- A row of a mnemonic alone: INV, REV, GRID, PRV. -/
theorem assembles_mnemonic {w : List Char} {i : Instr} (hw : w ≠ [])
    (hupper : w.all Char.isUpper = true) (hread : readCommand w [] = some i) :
    Assembles w i (encode i).1 (encode i).2 := by
  have hplain : ∀ c ∈ w, Plain c := plain_of_isUpper hupper
  have hblank : ∀ c ∈ w, isBlankChar c = false := fun c hc => (hplain c hc).1
  have hcomment : ∀ r, dropComment (w ++ r) = w ++ dropComment r :=
    dropComment_append fun c hc => (hplain c hc).2.2
  have hfirst : firstWord w = w := by simpa [firstWord] using firstWord_append hblank []
  have hafter : afterWord w = [] := by simpa [afterWord] using afterWord_append hblank []
  have hline : ∀ text, dropComment text = w → assembleLine text = .command i := by
    intro text htext
    obtain ⟨c, u, rfl⟩ := List.exists_cons_of_ne_nil hw
    rw [assembleLine, htext, trimBoth_of_plain hblank]
    simp only [hfirst, hafter, show trimBoth [] = [] from rfl, hread, asmOf]
  have hboth : ∀ text, dropComment text = w →
      assembleLine text = .command i ∧ assembleWords text = some (encode i) := fun text htext =>
    ⟨hline text htext, by rw [assembleWords, hline text htext]⟩
  obtain ⟨hcommand, hwords⟩ := hboth w (by simpa [dropComment] using hcomment [])
  exact ⟨hcommand, hwords, fun comment => hboth _ (by simp [hcomment, dropComment])⟩

/-- A row of a mnemonic and numbers separated by commas. -/
theorem assembles_commaText {w : List Char} {ts : List (List Char)} {ns : List Nat} {i : Instr}
    (hw : w ≠ []) (hupper : w.all Char.isUpper = true) (h : NumberTexts ts ns) (hts : ts ≠ [])
    (hread : readCommand w (commaText ts) = some i) :
    Assembles (w ++ ' ' :: commaText ts) i (encode i).1 (encode i).2 := by
  obtain ⟨c, u, v, d, hc, hd, bc, bd, -⟩ := commaText_ends h hts
  exact assembles_of_read rfl hw (plain_of_isUpper hupper) (commaText_chars h) hc hd bc bd hread

/-- A row of a mnemonic and an index. -/
theorem assembles_index {w t : List Char} {idx : Int} {i : Instr} (hw : w ≠ [])
    (hupper : w.all Char.isUpper = true) (h : IndexText t idx) (hread : readCommand w t = some i) :
    Assembles (w ++ ' ' :: t) i (encode i).1 (encode i).2 := by
  obtain ⟨hne, hchars⟩ := h.chars
  obtain ⟨c, u, hc⟩ := List.exists_cons_of_ne_nil hne
  obtain ⟨v, d, hd⟩ := (List.eq_nil_or_concat t).resolve_left hne
  rw [List.concat_eq_append] at hd
  exact assembles_of_read rfl hw (plain_of_isUpper hupper) (fun c hc => (hchars c hc).2.2) hc hd
    (hchars c (by simp [hc])).1 (hchars d (by simp [hd])).1 hread

theorem assembles_rdat {t : List Char} {idx : Int} (h : IndexText t idx)
    (hidx : indexEncodable idx = true) :
    Assembles (['R', 'D', 'A', 'T', ' '] ++ t) (.rdat idx)
      (0x10000000#32 ||| (BitVec.ofInt 32 idx &&& 0xFFFF#32)) 0#64 := by
  have hread : readCommand ['R', 'D', 'A', 'T'] t = some (.rdat idx) := by
    rw [readCommand, if_pos rfl, readIndex_of_text h hidx]
    rfl
  have hline := assembles_index (w := ['R', 'D', 'A', 'T']) (by simp) rfl h hread
  rwa [encode, formatC_index] at hline

theorem assembles_stat {t : List Char} {idx : Int} (h : IndexText t idx)
    (hidx : indexEncodable idx = true) :
    Assembles (['S', 'T', 'A', 'T', ' '] ++ t) (.stat idx)
      (0x20000000#32 ||| (BitVec.ofInt 32 idx &&& 0xFFFF#32)) 0#64 := by
  have hread : readCommand ['S', 'T', 'A', 'T'] t = some (.stat idx) := by
    rw [readCommand, if_neg (by decide), if_pos rfl, readIndex_of_text h hidx]
    rfl
  have hline := assembles_index (w := ['S', 'T', 'A', 'T']) (by simp) rfl h hread
  rwa [encode, formatC_index] at hline

theorem readCommand_ldg (rest : List Char) :
    readCommand ['L', 'D', 'G'] rest = (readGlyphOperand rest).map .ldg := by
  rw [readCommand, if_neg (by decide), if_neg (by decide), if_pos rfl]

/-- Only a text that begins with the letter `g` has glyph arguments. -/
theorem glyphArguments_of_head {c : Char} (hc : c ≠ 'g') (u : List Char) :
    glyphArguments (c :: u) = none := by
  unfold glyphArguments
  split
  · next h => exact absurd (List.cons.inj h).1 hc
  · rfl

theorem readGlyphOperand_of_number {t : List Char} {n : Nat} (h : NumberText t n)
    (hn : n < 2 ^ 64) : readGlyphOperand t = some (BitVec.ofNat 64 n) := by
  have hread : readBelow (2 ^ 64) t = some n := (readBelow_of_text h hn).1
  obtain ⟨c, u, rfl, -, hg, hplain⟩ := h.chars
  rw [readGlyphOperand, trimBoth_of_plain fun d hd => (hplain d hd).1,
    glyphArguments_of_head hg, hread]
  rfl

theorem assembles_ldg_number {t : List Char} {n : Nat} (h : NumberText t n) (hn : n < 2 ^ 64) :
    Assembles (['L', 'D', 'G', ' '] ++ t) (.ldg (BitVec.ofNat 64 n)) 0x30000000#32
      (BitVec.ofNat 64 n) := by
  have hread : readCommand ['L', 'D', 'G'] t = some (.ldg (BitVec.ofNat 64 n)) := by
    rw [readCommand_ldg, readGlyphOperand_of_number h hn]
    rfl
  exact assembles_commaText (w := ['L', 'D', 'G']) (ts := [t]) (by simp) rfl
    (.cons h .nil) (by simp) hread

/-- The text `glyph(...)` of eight row bytes (30_encoding.md R54). -/
def glyphText (ts : List (List Char)) : List Char :=
  ['g', 'l', 'y', 'p', 'h', '('] ++ commaText ts ++ [')']

theorem glyphArguments_glyphText (ts : List (List Char)) :
    glyphArguments (glyphText ts) = some (commaText ts) := by
  simp [glyphArguments, glyphText]

theorem trimBoth_glyphText (ts : List (List Char)) : trimBoth (glyphText ts) = glyphText ts :=
  trimBoth_of_ends (c := 'g') (d := ')') (v := ['g', 'l', 'y', 'p', 'h', '('] ++ commaText ts) rfl
    (by decide) (by decide)

theorem readGlyphOperand_glyphText {ts : List (List Char)} {ns : List Nat} (h : NumberTexts ts ns)
    (hlength : ns.length = 8) (hbound : ∀ n ∈ ns, n < 256) :
    readGlyphOperand (glyphText ts) = some (ofRows fun r => BitVec.ofNat 8 (ns.getD r 0)) := by
  have hts : ts ≠ [] := by
    rintro rfl
    cases h
    cases hlength
  rw [readGlyphOperand, trimBoth_glyphText, glyphArguments_glyphText]
  simp only [(readAll_commaText h hbound hts).1, hlength, if_true]

theorem assembles_ldg_glyph {ts : List (List Char)} {ns : List Nat} (h : NumberTexts ts ns)
    (hlength : ns.length = 8) (hbound : ∀ n ∈ ns, n < 256) :
    Assembles (['L', 'D', 'G', ' '] ++ glyphText ts)
      (.ldg (ofRows fun r => BitVec.ofNat 8 (ns.getD r 0))) 0x30000000#32
      (ofRows fun r => BitVec.ofNat 8 (ns.getD r 0)) := by
  have hchars : ∀ c ∈ glyphText ts, c ≠ ';' := by
    intro c hc
    simp only [glyphText, List.mem_append] at hc
    obtain (hc | hc) | hc := hc
    · exact (by simp : ∀ c ∈ ['g', 'l', 'y', 'p', 'h', '('], c ≠ ';') c hc
    · exact commaText_chars h c hc
    · exact (by simp : ∀ c ∈ [')'], c ≠ ';') c hc
  refine assembles_of_read (w := ['L', 'D', 'G']) (rest := glyphText ts) (c := 'g') (d := ')') rfl
    (by simp) (plain_of_isUpper rfl) hchars rfl rfl (by decide) (by decide) ?_
  rw [readCommand_ldg, readGlyphOperand_glyphText h hlength hbound]
  rfl

/-- The row of LDG with eight row bytes, and the glyph it loads. -/
theorem assembles_ldg_rows {t : Fin 8 → List Char} {b : Fin 8 → Byte}
    (h : ∀ k, NumberText (t k) (b k).toNat) :
    ∃ g : Glyph, (∀ k : Fin 8, row g k.val = b k) ∧
      Assembles (['L', 'D', 'G', ' '] ++ glyphText [t 0, t 1, t 2, t 3, t 4, t 5, t 6, t 7])
        (.ldg g) 0x30000000#32 g := by
  have htexts : NumberTexts (List.ofFn t) (List.ofFn fun k => (b k).toNat) := by
    refine List.forall₂_iff_get.mpr ⟨by rw [List.length_ofFn, List.length_ofFn], fun k hk _ => ?_⟩
    rw [List.get_ofFn, List.get_ofFn]
    exact h _
  have hbound : ∀ n ∈ List.ofFn fun k => (b k).toNat, n < 256 := by
    intro n hn
    obtain ⟨k, rfl⟩ := (List.mem_ofFn' _ _).mp hn
    exact (b k).isLt
  have hrow : ∀ k : Fin 8, (List.ofFn fun k => (b k).toNat).getD k.val 0 = (b k).toNat := by
    intro k
    rw [List.getD_eq_getElem _ _ (by simp), List.getElem_ofFn]
  refine ⟨_, fun k => ?_, assembles_ldg_glyph htexts (List.length_ofFn ..) hbound⟩
  rw [row_ofRows _ k.isLt, hrow, BitVec.ofNat_toNat, BitVec.setWidth_eq]

theorem readCommand_tgl (rest : List Char) :
    readCommand ['T', 'G', 'L'] rest = readToggle rest := rfl

theorem assembles_tgl {tr tc : List Char} {r c : Fin 8} (hr : NumberText tr r.val)
    (hc : NumberText tc c.val) :
    Assembles (['T', 'G', 'L', ' '] ++ commaText [tr, tc]) (.tgl r c)
      (0x60000000#32 ||| (BitVec.ofNat 32 r.val <<< 19) ||| (BitVec.ofNat 32 c.val <<< 16))
      0#64 := by
  have htexts : NumberTexts [tr, tc] [r.val, c.val] := .cons hr (.cons hc .nil)
  have hbound : ∀ n ∈ [r.val, c.val], n < 8 := by simp [r.isLt, c.isLt]
  have hread : readCommand ['T', 'G', 'L'] (commaText [tr, tc]) = some (.tgl r c) := by
    rw [readCommand_tgl, readToggle, (readAll_commaText htexts hbound (by simp)).1]
    simp
  have hline := assembles_commaText (by simp) rfl htexts (by simp) hread
  rwa [encode, formatC_pixel] at hline

theorem readCommand_import (rest : List Char) :
    readCommand ['I', 'M', 'P', 'O', 'R', 'T'] rest = readImport rest := rfl

theorem assembles_import {tsrc tw th : List Char} {src : ImageStatus} {w h : BitVec 16}
    (hsrc : NumberText tsrc (sourceBits src).toNat) (hw : NumberText tw w.toNat)
    (hh : NumberText th h.toNat) :
    Assembles (['I', 'M', 'P', 'O', 'R', 'T', ' '] ++ commaText [tsrc, tw, th])
      (.importFont src w h) 0x90000000#32
      (BitVec.ofNat 64 (sourceBits src).toNat ||| (w.setWidth 64 <<< 16)
        ||| (h.setWidth 64 <<< 32)) := by
  have htexts : NumberTexts [tsrc, tw, th] [(sourceBits src).toNat, w.toNat, h.toNat] :=
    .cons hsrc (.cons hw (.cons hh .nil))
  have hfour : (sourceBits src).toNat < 4 := (sourceBits src).isLt
  have hbound : ∀ n ∈ [(sourceBits src).toNat, w.toNat, h.toNat], n < 65536 := by
    intro n hn
    simp only [List.mem_cons, List.not_mem_nil, or_false] at hn
    obtain rfl | rfl | rfl := hn
    · omega
    · exact w.isLt
    · exact h.isLt
  have hread : readCommand ['I', 'M', 'P', 'O', 'R', 'T'] (commaText [tsrc, tw, th])
      = some (.importFont src w h) := by
    rw [readCommand_import, readImport, (readAll_commaText htexts hbound (by simp)).1]
    simp [hfour]
  have hline := assembles_commaText (by simp) rfl htexts (by simp) hread
  rwa [encode, descriptor_eq_or, ← BitVec.ofNat_toNat] at hline

/-- Settles O60: each row is read by its own reader, and a line that assembles names a well-formed
command. -/
theorem assembledLinesDecode : Obligations.AssembledLinesDecode := by
  refine ⟨?_, fun t n => assembles_ldg_number, fun t b => assembles_ldg_rows,
    assembles_mnemonic (by simp) rfl rfl, assembles_mnemonic (by simp) rfl rfl, fun tr tc r c => assembles_tgl,
    assembles_mnemonic (by simp) rfl rfl, assembles_mnemonic (by simp) rfl rfl, ?_,
    fun line i => assembleWords_decode⟩
  · intro t idx h hlow hhigh
    have hidx : indexEncodable idx = true := decide_eq_true ⟨hlow, hhigh⟩
    exact ⟨assembles_rdat h hidx, assembles_stat h hidx⟩
  · intro tsrc tw th w h hw hh q hq hsrc
    simp only [List.mem_cons, List.not_mem_nil, or_false] at hq
    rcases hq with rfl | rfl | rfl
    · exact assembles_import (src := .decoded) hsrc hw hh
    · exact assembles_import (src := .notFound) hsrc hw hh
    · exact assembles_import (src := .undecodable) hsrc hw hh

end Sys2Proof.Machine
end

section
/-! INV, REV and TGL, row by row and pixel by pixel, and their laws (40_transforms.md). -/

namespace Sys2Proof.Machine

/-! Each transform on one row: row `i` of the result is a function of row `i` (R60). -/

@[simp] theorem row_invertGlyph (g : Glyph) {i : Nat} (hi : i < 8) :
    row (invertGlyph g) i = ~~~(row g i) := row_ofRows _ hi

theorem getLsbD_reverse_byte (b : Byte) {j : Nat} (hj : j < 8) :
    b.reverse.getLsbD j = b.getLsbD (7 - j) := by
  rw [BitVec.getLsbD_reverse, BitVec.getMsbD_eq_getLsbD, decide_eq_true hj, Bool.true_and]

@[simp] theorem row_reverseGlyph (g : Glyph) {i : Nat} (hi : i < 8) :
    row (reverseGlyph g) i = (row g i).reverse := by
  apply byte_ext
  intro j hj
  calc (row (reverseGlyph g) i).getLsbD j
      = px g i (7 - j) := px_ofPixels _ hi hj
    _ = (row g i).reverse.getLsbD j := (getLsbD_reverse_byte _ hj).symm

theorem row_toggleGlyph (r c : Nat) (g : Glyph) {i : Nat} (hi : i < 8) :
    row (toggleGlyph r c g) i = if i = r then row g i ^^^ (0x01#8 <<< c) else row g i :=
  row_ofRows _ hi

/-! Each transform on one pixel. -/

@[simp] theorem px_invertGlyph (g : Glyph) {i j : Nat} (hi : i < 8) (hj : j < 8) :
    px (invertGlyph g) i j = !px g i j := by
  rw [px, row_invertGlyph g hi, BitVec.getLsbD_not, decide_eq_true hj, Bool.true_and, px]

@[simp] theorem px_reverseGlyph (g : Glyph) {i j : Nat} (hi : i < 8) (hj : j < 8) :
    px (reverseGlyph g) i j = px g i (7 - j) := px_ofPixels _ hi hj

theorem toggleGlyph_eq_xor_of_lt {r c : Nat} (hr : r < 8) (hc : c < 8) (g : Glyph) :
    toggleGlyph r c g = g ^^^ (1#64 <<< (8 * r + c)) := toggleGlyph_eq_xor ⟨r, hr⟩ ⟨c, hc⟩ g

theorem px_toggleGlyph {r c : Nat} (hr : r < 8) (hc : c < 8) (g : Glyph) (i : Nat) {j : Nat}
    (hj : j < 8) : px (toggleGlyph r c g) i j = (px g i j ^^ decide (i = r ∧ j = c)) := by
  rw [toggleGlyph_eq_xor_of_lt hr hc, px_xor _ _ i hj, px_singleBit ⟨r, hr⟩ ⟨c, hc⟩ i hj]

/-- The complement of every row is the complement of all 64 bits (40_transforms.md R61). -/
theorem invertGlyph_eq_not (g : Glyph) : invertGlyph g = ~~~g := by
  apply glyph_ext_pixels
  intro i hi j hj
  rw [px_invertGlyph g hi hj, px_eq_getLsbD g i hj, px_eq_getLsbD _ i hj, BitVec.getLsbD_not,
    decide_eq_true (by omega), Bool.true_and]

/-! The three commands on the unit. -/

/-- What a command that writes `GR` leaves behind: code 0, and every element but `GR` as it was. -/
theorem done_setGr_frame (s : State) (g : Glyph) :
    (done (s.setGr g)).err = 0#4 ∧ (done (s.setGr g)).rs = s.rs ∧
      (∀ a, readByte (done (s.setGr g)).rs a = readByte s.rs a) ∧ (done (s.setGr g)).bg = s.bg ∧
      (done (s.setGr g)).pv = s.pv ∧ (done (s.setGr g)).image = s.image ∧
      (done (s.setGr g)).host = s.host :=
  ⟨rfl, rfl, fun _ => rfl, rfl, rfl, rfl, rfl⟩

/-- Settles O25: the complement of the rows is the complement of the bits and of the pixels. -/
theorem invComplementsEveryPixel : Obligations.InvComplementsEveryPixel := by
  intro s
  exact ⟨_, exec_inv s, invertGlyph_eq_not s.gr, fun _ hi => row_invertGlyph s.gr hi,
    fun _ hi _ hj => px_invertGlyph s.gr hi hj, done_setGr_frame s _⟩

/-- Settles O26: the mirrored pixels of a row are the reversed row byte, in the same place. -/
theorem revMirrorsEveryRow : Obligations.RevMirrorsEveryRow := by
  intro s
  exact ⟨_, exec_rev s, fun _ hi _ hj => px_reverseGlyph s.gr hi hj,
    fun _ hi => row_reverseGlyph s.gr hi, done_setGr_frame s _⟩

/-- Settles O27: the XOR on the row byte is the XOR of one bit of the glyph, which is one pixel. -/
theorem tglFlipsExactlyOnePixel : Obligations.TglFlipsExactlyOnePixel := by
  intro r c s
  exact ⟨_, exec_tgl r c s, toggleGlyph_eq_xor r c s.gr,
    fun i _ _ hj => px_toggleGlyph r.isLt c.isLt s.gr i hj, done_setGr_frame s _⟩

/-- Settles O30: each side is the same function of the row that the two glyphs share. -/
theorem transformsActRowByRow : Obligations.TransformsActRowByRow := by
  intro g h i hi hrow
  refine ⟨?_, ?_, fun r _ c _ => ⟨?_, fun hne => ?_⟩⟩
  · rw [row_invertGlyph g hi, row_invertGlyph h hi, hrow]
  · rw [row_reverseGlyph g hi, row_reverseGlyph h hi, hrow]
  · rw [row_toggleGlyph r c g hi, row_toggleGlyph r c h hi, hrow]
  · rw [row_toggleGlyph r c g hi, if_neg hne]

/-! The laws. -/

@[simp] theorem invertGlyph_invertGlyph (g : Glyph) : invertGlyph (invertGlyph g) = g := by
  rw [invertGlyph_eq_not, invertGlyph_eq_not, BitVec.not_not]

/-- Mirroring a column twice gives the column back. -/
@[simp] theorem reverseGlyph_reverseGlyph (g : Glyph) : reverseGlyph (reverseGlyph g) = g := by
  apply glyph_ext_pixels
  intro i hi j hj
  have hmirror : 7 - (7 - j) = j := by omega
  rw [px_reverseGlyph _ hi hj, px_reverseGlyph g hi (by omega), hmirror]

/-- A command that edits `GR` by an involution, issued twice, only reports success. -/
theorem exec_twice_of_involution {i : Instr} {f : Glyph → Glyph}
    (hexec : ∀ s, exec i s = .next (done (s.setGr (f s.gr)))) (hf : ∀ g, f (f g) = g) (s : State) :
    ∃ t u, exec i s = .next t ∧ exec i t = .next u ∧ u = { s with err := 0#4 } := by
  refine ⟨_, _, hexec s, hexec _, ?_⟩
  rw [done_gr, State.setGr_gr, hf]
  rfl

/-- Settles O28: on the unit each command edits `GR` by its involution. -/
theorem invAndRevAreInvolutions : Obligations.InvAndRevAreInvolutions :=
  ⟨fun g => ⟨reverseGlyph_reverseGlyph g, invertGlyph_invertGlyph g⟩, fun s =>
    ⟨exec_twice_of_involution exec_inv invertGlyph_invertGlyph s,
      exec_twice_of_involution exec_rev reverseGlyph_reverseGlyph s⟩⟩

theorem invertGlyph_reverseGlyph (g : Glyph) :
    invertGlyph (reverseGlyph g) = reverseGlyph (invertGlyph g) := by
  apply glyph_ext_pixels
  intro i hi j hj
  rw [px_invertGlyph _ hi hj, px_reverseGlyph g hi hj, px_reverseGlyph _ hi hj,
    px_invertGlyph g hi (by omega)]

theorem toggleGlyph_toggleGlyph {r c : Nat} (hr : r < 8) (hc : c < 8) (g : Glyph) :
    toggleGlyph r c (toggleGlyph r c g) = g := by
  rw [toggleGlyph_eq_xor_of_lt hr hc, toggleGlyph_eq_xor_of_lt hr hc, BitVec.xor_assoc,
    BitVec.xor_self, BitVec.xor_zero]

theorem toggleGlyph_comm {r c r' c' : Nat} (hr : r < 8) (hc : c < 8) (hr' : r' < 8) (hc' : c' < 8)
    (g : Glyph) : toggleGlyph r c (toggleGlyph r' c' g) = toggleGlyph r' c' (toggleGlyph r c g) := by
  simp only [toggleGlyph_eq_xor_of_lt hr hc, toggleGlyph_eq_xor_of_lt hr' hc']
  rw [BitVec.xor_assoc, BitVec.xor_assoc, BitVec.xor_comm (1#64 <<< (8 * r' + c'))]

/-- The pixel (`r`, `c`) of the mirrored glyph is the pixel (`r`, `7 - c`) of the glyph. -/
theorem toggleGlyph_reverseGlyph {r c : Nat} (hr : r < 8) (hc : c < 8) (g : Glyph) :
    toggleGlyph r c (reverseGlyph g) = reverseGlyph (toggleGlyph r (7 - c) g) := by
  apply glyph_ext_pixels
  intro i hi j hj
  have hmirror : 7 - j = 7 - c ↔ j = c := by omega
  rw [px_toggleGlyph hr hc _ i hj, px_reverseGlyph g hi hj, px_reverseGlyph _ hi hj,
    px_toggleGlyph hr (by omega) g i (by omega)]
  simp only [hmirror]

theorem invertGlyph_toggleGlyph {r c : Nat} (hr : r < 8) (hc : c < 8) (g : Glyph) :
    invertGlyph (toggleGlyph r c g) = toggleGlyph r c (invertGlyph g) := by
  apply glyph_ext_pixels
  intro i hi j hj
  rw [px_invertGlyph _ hi hj, px_toggleGlyph hr hc g i hj, px_toggleGlyph hr hc _ i hj,
    px_invertGlyph g hi hj, Bool.not_xor]

/-- Every pixel of the inverted glyph differs, the first one among them. -/
theorem invertGlyph_ne (g : Glyph) : invertGlyph g ≠ g := by
  intro h
  have hpx : (!px g 0 0) = px g 0 0 := by rw [← px_invertGlyph g (by omega) (by omega), h]
  exact Bool.not_ne_self _ hpx

theorem reverseGlyph_eq_self_iff (g : Glyph) :
    reverseGlyph g = g ↔ ∀ i < 8, (row g i).reverse = row g i := by
  constructor
  · intro h i hi
    rw [← row_reverseGlyph g hi, h]
  · intro h
    apply glyph_ext_rows
    intro i hi
    rw [row_reverseGlyph g hi, h i hi]

/-- Settles O29: the laws in their order, each proved on the pixels, the bits or the rows above. -/
theorem transformLaws : Obligations.TransformLaws :=
  ⟨invertGlyph_reverseGlyph,
    fun _ hr _ hc => toggleGlyph_toggleGlyph hr hc,
    fun _ hr _ hc _ hr' _ hc' => toggleGlyph_comm hr hc hr' hc',
    fun _ hr _ hc => toggleGlyph_reverseGlyph hr hc,
    fun _ hr _ hc => invertGlyph_toggleGlyph hr hc,
    invertGlyph_ne, reverseGlyph_eq_self_iff⟩

end Sys2Proof.Machine
end

section
/-! RDAT, STAT and LDG on the unit: the index check, and the store as 256 independent cells
(41_container.md). -/

namespace Sys2Proof.Machine

/-! A stored glyph byte by byte: its rows at their addresses, every other address untouched. -/

theorem rowAddress_div (i : Nat) {r : Nat} (hr : r < 8) : rowAddress i r / 8 = i := by
  rw [rowAddress, Config.nRow]; omega

theorem rowAddress_mod (i : Nat) {r : Nat} (hr : r < 8) : rowAddress i r % 8 = r := by
  rw [rowAddress, Config.nRow]; omega

theorem rowAddress_div_mod (a : Nat) : rowAddress (a / 8) (a % 8) = a := Nat.div_add_mod a 8

theorem readByte_writeGlyph_row (m : Memory) (i : Nat) (g : Glyph) {r : Nat} (hr : r < 8) :
    readByte (writeGlyph m i g) (rowAddress i r) = row g r := by
  rw [readByte_writeGlyph, if_pos (rowAddress_div i hr), rowAddress_mod i hr]

theorem readByte_writeGlyph_outside (m : Memory) {i a : Nat} (g : Glyph)
    (h : ∀ r < 8, a ≠ rowAddress i r) : readByte (writeGlyph m i g) a = readByte m a := by
  have hentry : a / 8 ≠ i := by
    rintro rfl
    exact h (a % 8) (Nat.mod_lt a (by omega)) (rowAddress_div_mod a).symm
  rw [readByte_writeGlyph, if_neg hentry]

theorem readGlyph_writeGlyph_same (m : Memory) (i : Nat) (g : Glyph) :
    readGlyph (writeGlyph m i g) i = g := by
  rw [readGlyph_writeGlyph, if_pos rfl]

theorem readGlyph_writeGlyph_of_ne (m : Memory) {i k : Nat} (g : Glyph) (h : k ≠ i) :
    readGlyph (writeGlyph m i g) k = readGlyph m k := by
  rw [readGlyph_writeGlyph, if_neg h]

/-! The statements. -/

/-- Settles O19: the loaded glyph has the entry's bytes as its rows, and only `GR` is written. -/
theorem rdatLoadsTheEntry : Obligations.RdatLoadsTheEntry := by
  intro idx s h0 h1
  exact ⟨_, exec_rdat_valid (validIndex_of_range h0 h1) s, rfl,
    fun _ hr => row_readGlyph s.rs idx.toNat hr, done_setGr_frame s _⟩

/-- Settles O20: the stored glyph read back by entries and by bytes, at its place and elsewhere. -/
theorem statStoresTheGlyph : Obligations.StatStoresTheGlyph := by
  intro idx s h0 h1
  exact ⟨_, exec_stat_valid (validIndex_of_range h0 h1) s,
    readGlyph_writeGlyph_same s.rs idx.toNat s.gr,
    fun _ hr => readByte_writeGlyph_row s.rs _ s.gr hr,
    fun _ ha => readByte_writeGlyph_outside s.rs s.gr ha,
    fun _ hk => readGlyph_writeGlyph_of_ne s.rs s.gr hk,
    rfl, rfl, rfl, rfl, rfl, rfl⟩

/-- Settles O22: the word decodes to LDG of the operand, which writes `GR` and the code only. -/
theorem ldgLoadsTheOperand : Obligations.LdgLoadsTheOperand := by
  intro din s
  have hword : 0x30000000#32 = formatC 0x3#4 0#3 0#3 0#16 := by decide
  refine ⟨?_, _, exec_ldg din s, rfl, done_setGr_frame s din⟩
  rw [hword, issue_ok (decode_ldg din)]

theorem issue_rdat (v : BitVec 16) (din : Operand) (s : State) :
    issue (formatC 0x1#4 0#3 0#3 v) din s = exec (.rdat v.toInt) s := issue_ok (decode_rdat v din) s

theorem issue_stat (v : BitVec 16) (din : Operand) (s : State) :
    issue (formatC 0x2#4 0#3 0#3 v) din s = exec (.stat v.toInt) s := issue_ok (decode_stat v din) s

/-- Settles O21: the word of either command runs it with the signed value of `IDX`, which the check
then accepts or answers with code 1. -/
theorem indexCheckOfRdatAndStat : Obligations.IndexCheckOfRdatAndStat := by
  intro op v din s hop
  by_cases hrange : 0 ≤ v.toInt ∧ v.toInt ≤ 255
  · have hv : validIndex v.toInt = true := (validIndex_iff _).mpr hrange
    simp only [if_pos hrange]
    rcases hop with rfl | rfl
    · exact ⟨_, (issue_rdat v din s).trans (exec_rdat_valid hv s), fun _ => rfl,
        fun h => absurd h (by decide)⟩
    · exact ⟨_, (issue_stat v din s).trans (exec_stat_valid hv s), fun h => absurd h (by decide),
        fun _ => ⟨rfl, readGlyph_writeGlyph_same s.rs _ s.gr,
          fun _ hk => readGlyph_writeGlyph_of_ne s.rs s.gr hk⟩⟩
  · have hv : validIndex v.toInt = false := validIndex_eq_false (by omega)
    simp only [if_neg hrange]
    rcases hop with rfl | rfl
    · exact ⟨_, (issue_rdat v din s).trans (exec_rdat_invalid hv s), rfl⟩
    · exact ⟨_, (issue_stat v din s).trans (exec_stat_invalid hv s), rfl⟩

/-- Settles O23: RDAT reads the written store, where distinct valid indices have distinct entries. -/
theorem storeThenReadBack : Obligations.StoreThenReadBack := by
  intro i k s hi0 hi1 hk0 hk1
  refine ⟨_, _, exec_stat_valid (validIndex_of_range hi0 hi1) s,
    exec_rdat_valid (validIndex_of_range hk0 hk1) _, ?_⟩
  have hentry : glyphIndex k = glyphIndex i ↔ k = i := by rw [glyphIndex, glyphIndex]; omega
  calc readGlyph (writeGlyph s.rs (glyphIndex i) s.gr) (glyphIndex k)
      = if glyphIndex k = glyphIndex i then s.gr else readGlyph s.rs (glyphIndex k) :=
        readGlyph_writeGlyph _ _ _ _
    _ = if k = i then s.gr else readGlyph s.rs k.toNat := if_congr hentry rfl rfl

end Sys2Proof.Machine
end

section
/-! The codec: `Encode` and `Decode` are inverse to each other, and the host's two procedures
realise them with the unit's commands (42_codec.md). -/

namespace Sys2Proof.Machine

/-! The two functions. -/

theorem decodeBytes_of_length {b : List Byte} (h : b.length = Config.nBytes) :
    decodeBytes b = some (ofBytes fun a => b.getD a 0#8) := if_pos h

theorem decodeBytes_of_length_ne {b : List Byte} (h : b.length ≠ Config.nBytes) :
    decodeBytes b = none := if_neg h

theorem map_getD_range {b : List Byte} {n : Nat} (h : b.length = n) :
    ((List.range n).map fun a => b.getD a 0#8) = b := by
  apply List.ext_getElem
  · rw [List.length_map, List.length_range, h]
  · intro a _ ha
    rw [List.getElem_map, List.getElem_range, List.getD_eq_getElem b _ ha]

/-- A store that reads as the buffer has the buffer as its layout (20_memory.md R32). -/
theorem storeBytes_of_bytes {m : Memory} {b : List Byte} (hb : b.length = Config.nBytes)
    (h : ∀ a < Config.nBytes, readByte m a = b.getD a 0#8) : storeBytes m = b := by
  rw [storeBytes_eq_map_readByte]
  exact (List.map_congr_left fun a ha => h a (List.mem_range.mp ha)).trans (map_getD_range hb)

/-- Stores with the same layout hold the same glyphs: `BYTES` loses nothing (20_memory.md R32). -/
theorem sameGlyphs_of_storeBytes_eq {m n : Memory} (h : storeBytes m = storeBytes n) :
    sameGlyphs m n := by
  intro i hi
  refine ofRows_congr fun r hr => Option.some.inj ?_
  rw [← getElem?_storeBytes m (rowAddress_lt hi hr), h, getElem?_storeBytes n (rowAddress_lt hi hr)]

/-- The canonical form makes the layout determine the store as data. -/
theorem eq_of_storeBytes_eq {m n : Memory} (hm : m.wf) (hn : n.wf)
    (h : storeBytes m = storeBytes n) : m = n :=
  (equalGlyphsAreEqualStores m n hm hn).mp (sameGlyphs_of_storeBytes_eq h)

/-- Settles O51: the decoded store reads at each address as the buffer does. -/
theorem storeBytesOfDecode : Obligations.StoreBytesOfDecode := by
  intro b hb
  refine ⟨_, decodeBytes_of_length hb, storeBytes_of_bytes hb fun a ha => ?_, ofBytes_wf _⟩
  rw [readByte_ofBytes, if_pos ha]

/-- Settles O50: by the law for buffers, the decoded store has the layout of the given one. -/
theorem decodeOfStoreBytes : Obligations.DecodeOfStoreBytes := by
  intro m
  obtain ⟨n, hdecode, hbytes, hn⟩ := storeBytesOfDecode (storeBytes m) (length_storeBytes m)
  exact ⟨n, hdecode, sameGlyphs_of_storeBytes_eq hbytes, fun hm => eq_of_storeBytes_eq hn hm hbytes⟩

/-- Settles O52: both the function and the procedure test the length first. -/
theorem decodeGuardsTheLength : Obligations.DecodeGuardsTheLength := by
  intro b s hb
  exact ⟨decodeBytes_of_length_ne hb, if_neg hb⟩

/-! The loops of the two procedures. Every turn overwrites `GR` and `ST.ERR`, so that of a loop over
`l ++ [i]` only the last turn shows there. -/

theorem validIndex_natCast {i : Nat} (h : i < Config.nGlyph) : validIndex i = true :=
  validIndex_of_range (Int.natCast_nonneg i) (by simp only [Config.nGlyph] at h; omega)

/-- The indices of both procedures, the last one apart. -/
theorem range_nGlyph : List.range Config.nGlyph = List.range 255 ++ [255] := List.range_succ

theorem lt_nGlyph_of_mem_append {k : Nat} (h : k ∈ List.range 255 ++ [255]) :
    k < Config.nGlyph := by
  rwa [← range_nGlyph, List.mem_range] at h

/-- What the host has read after the glyphs of `l` (42_codec.md R81). -/
def bytesOfGlyphs (m : Memory) (l : List Nat) : List Byte :=
  l.flatMap fun i => glyphBytes (readGlyph m i)

/-- Glyph after glyph and row after row is the order of the layout (20_memory.md R32). -/
theorem bytesOfGlyphs_range (m : Memory) (n : Nat) :
    bytesOfGlyphs m (List.range n)
      = (List.range (8 * n)).map fun a => row (readGlyph m (a / 8)) (a % 8) := by
  induction n with
  | zero => rfl
  | succ n ih =>
    have hlast : glyphBytes (readGlyph m n)
        = (List.range 8).map fun r => row (readGlyph m ((8 * n + r) / 8)) ((8 * n + r) % 8) := by
      refine List.map_congr_left fun r hr => ?_
      have hr : r < 8 := List.mem_range.mp hr
      rw [show (8 * n + r) / 8 = n by omega, show (8 * n + r) % 8 = r by omega]
    rw [bytesOfGlyphs, List.range_succ, List.flatMap_append, List.flatMap_singleton, hlast,
      Nat.mul_succ, List.range_add, List.map_append, List.map_map, ← ih]
    rfl

theorem bytesOfGlyphs_all (m : Memory) :
    bytesOfGlyphs m (List.range Config.nGlyph) = storeBytes m := bytesOfGlyphs_range m 256

/-- One turn of ENCODE (42_codec.md R81). -/
theorem encodeFrom_cons {i : Nat} (hi : i < Config.nGlyph) (l : List Nat) (s : State) :
    encodeFrom (i :: l) s = andThen (encodeFrom l (done (s.setGr (readGlyph s.rs i))))
      fun u => .next (u.1, glyphBytes (readGlyph s.rs i) ++ u.2) := by
  rw [encodeFrom, exec_rdat_valid (validIndex_natCast hi), andThen_next]
  rfl

/-- The loop of ENCODE: the bytes of all its glyphs, and the last glyph left in `GR`. -/
theorem encodeFrom_append_singleton {l : List Nat} {i : Nat} (h : ∀ k ∈ l ++ [i], k < Config.nGlyph)
    (s : State) :
    encodeFrom (l ++ [i]) s
      = .next (done (s.setGr (readGlyph s.rs i)), bytesOfGlyphs s.rs (l ++ [i])) := by
  induction l generalizing s with
  | nil => exact encodeFrom_cons (h i List.mem_cons_self) [] s
  | cons k l ih =>
    obtain ⟨hk, hrest⟩ := List.forall_mem_cons.mp h
    rw [List.cons_append, encodeFrom_cons hk, ih hrest, andThen_next]
    rfl

/-- Settles O53: the loop over all indices, the last of them 255. -/
theorem encodeProcedureReturnsTheLayout : Obligations.EncodeProcedureReturnsTheLayout := by
  intro s
  refine ⟨done (s.setGr (readGlyph s.rs 255)), ?_, rfl, rfl, rfl, rfl, rfl, rfl, rfl⟩
  rw [encodeProcedure, ← bytesOfGlyphs_all, range_nGlyph]
  exact encodeFrom_append_singleton (fun _ => lt_nGlyph_of_mem_append) s

/-- The store after the glyphs of `l` in a buffer were stored in order (42_codec.md R83). -/
def storeGlyphsOf (b : List Byte) : List Nat → Memory → Memory
  | [], m => m
  | i :: l, m => storeGlyphsOf b l (writeGlyph m i (glyphAt b i))

/-- The entries of `l` are replaced by the buffer's glyphs, the others are kept. -/
theorem readGlyph_storeGlyphsOf (b : List Byte) (l : List Nat) (m : Memory) (k : Nat) :
    readGlyph (storeGlyphsOf b l m) k = if k ∈ l then glyphAt b k else readGlyph m k := by
  induction l generalizing m with
  | nil => rfl
  | cons i l ih =>
    rw [storeGlyphsOf, ih]
    by_cases hl : k ∈ l
    · rw [if_pos hl, if_pos (List.mem_cons_of_mem i hl)]
    · by_cases hk : k = i
      · rw [if_neg hl, hk, readGlyph_writeGlyph_same, if_pos List.mem_cons_self]
      · have hnot : k ∉ i :: l := List.not_mem_cons_of_ne_of_not_mem hk hl
        rw [if_neg hl, readGlyph_writeGlyph_of_ne _ _ hk, if_neg hnot]

theorem storeGlyphsOf_wf (b : List Byte) {l : List Nat} (h : ∀ k ∈ l, k < Config.nGlyph)
    {m : Memory} (hm : m.wf) : (storeGlyphsOf b l m).wf := by
  induction l generalizing m with
  | nil => exact hm
  | cons i l ih =>
    obtain ⟨hi, hrest⟩ := List.forall_mem_cons.mp h
    exact ih hrest (writeGlyph_wf hm hi _)

@[simp] theorem row_glyphAt (b : List Byte) (i : Nat) {r : Nat} (hr : r < 8) :
    row (glyphAt b i) r = b.getD (rowAddress i r) 0#8 := row_ofRows _ hr

/-- Storing all 256 glyphs of a buffer replaces every byte of the store (42_codec.md R83). -/
theorem storeBytes_storeGlyphsOf {b : List Byte} (hb : b.length = Config.nBytes) (m : Memory) :
    storeBytes (storeGlyphsOf b (List.range Config.nGlyph) m) = b := by
  refine storeBytes_of_bytes hb fun a ha => ?_
  have hglyph : a / 8 < Config.nGlyph := by simp only [Config.nBytes, Config.nGlyph] at *; omega
  rw [readByte_eq_row, readGlyph_storeGlyphsOf, if_pos (List.mem_range.mpr hglyph),
    row_glyphAt b _ (Nat.mod_lt a (by omega)), rowAddress_div_mod]

/-- One turn of DECODE (42_codec.md R83). -/
theorem decodeFrom_cons (b : List Byte) {i : Nat} (hi : i < Config.nGlyph) (l : List Nat)
    (s : State) :
    decodeFrom b (i :: l) s = decodeFrom b l (storedAt i (glyphAt b i) s) := by
  rw [decodeFrom, runPseudo, Pseudo.expand, runCommands_ldg_stat (validIndex_natCast hi),
    andThen_next]

/-- The loop of DECODE: all its glyphs stored, and the last one left in `GR`. -/
theorem decodeFrom_append_singleton (b : List Byte) {l : List Nat} {i : Nat}
    (h : ∀ k ∈ l ++ [i], k < Config.nGlyph) (s : State) :
    decodeFrom b (l ++ [i]) s
      = .next (done ((s.setGr (glyphAt b i)).setRs (storeGlyphsOf b (l ++ [i]) s.rs))) := by
  induction l generalizing s with
  | nil => exact decodeFrom_cons b (h i List.mem_cons_self) [] s
  | cons k l ih =>
    obtain ⟨hk, hrest⟩ := List.forall_mem_cons.mp h
    rw [List.cons_append, decodeFrom_cons b hk, ih hrest]
    rfl

/-- The state in which a successful DECODE ends (42_codec.md R83). -/
theorem decodeProcedure_of_length {b : List Byte} (hb : b.length = Config.nBytes) (s : State) :
    decodeProcedure b s = .next (done ((s.setGr (glyphAt b 255)).setRs
      (storeGlyphsOf b (List.range Config.nGlyph) s.rs)), successCode) := by
  rw [decodeProcedure, if_pos hb, range_nGlyph,
    decodeFrom_append_singleton b (fun _ => lt_nGlyph_of_mem_append), andThen_next]

/-- Settles O54: the loop stores the whole buffer, and a canonical store is fixed by its bytes,
which are those of the decoded one. -/
theorem decodeProcedureReplacesTheStore : Obligations.DecodeProcedureReplacesTheStore := by
  intro b s hb
  have hbytes := storeBytes_storeGlyphsOf hb s.rs
  refine ⟨_, decodeProcedure_of_length hb s, ?_⟩
  simp only [done_rs, State.setRs_rs]
  refine ⟨hbytes, fun hwf => ?_, rfl, rfl, rfl, rfl, rfl, rfl⟩
  obtain ⟨n, hdecode, hn, hnwf⟩ := storeBytesOfDecode b hb
  have hwf' := storeGlyphsOf_wf b (fun _ => List.mem_range.mp) hwf
  rw [hdecode, eq_of_storeBytes_eq hnwf hwf' (hn.trans hbytes.symm)]

end Sys2Proof.Machine
end

section
/-! GRID and PRV: the grid of bits, the sixteen quadrant codes bit by bit, and the preview as
characters (43_preview.md). -/

namespace Sys2Proof.Machine

/-! GRID. -/

/-- The shift and mask of the bit test read one bit of the packed glyph (43_preview.md R90). -/
theorem getLsbD_eq_bitTest (g : Glyph) (i : Nat) {j : Nat} (hj : j < 8) :
    g.getLsbD (8 * i + j) = decide ((row g i >>> j) &&& 1#8 = 1#8) :=
  calc g.getLsbD (8 * i + j)
      = px g i j := (px_eq_getLsbD g i hj).symm
    _ = toBitGrid g i j := (toBitGrid_eq_px g i j).symm

/-- Settles O31: the packed grid is the glyph itself, whose bits are the bit tests. -/
theorem gridExpandsTheGlyph : Obligations.GridExpandsTheGlyph := by
  intro s
  have hbg : (done (s.setBg (packGrid (toBitGrid s.gr)))).bg = s.gr := packGrid_toBitGrid s.gr
  refine ⟨_, exec_grid s, fun i _ j hj => ?_, hbg, rfl, rfl, fun _ => rfl, rfl, rfl, rfl, rfl⟩
  rw [hbg, getLsbD_eq_bitTest s.gr i hj]

/-! The quadrant code of one cell. -/

theorem weighted_eq_mul_toNat (b : Bool) (w : Nat) : weighted b w = w * b.toNat := by
  cases b
  · rfl
  · exact (Nat.mul_one w).symm

/-- Bit `2a + b` of a quadrant code is the pixel in row `a`, column `b` of its cell
(43_preview.md R91). -/
theorem testBit_quadrantCode (g : Glyph) (cy cx : Nat) {a b : Nat} (ha : a < 2) (hb : b < 2) :
    (quadrantCode g cy cx).testBit (2 * a + b) = px g (2 * cy + a) (2 * cx + b) := by
  have weights : ∀ tl tr bl br : Bool, ∀ a b : Fin 2,
      (weighted tl 1 + weighted tr 2 + weighted bl 4 + weighted br 8).testBit (2 * a.val + b.val)
        = bif a.val == 0 then (bif b.val == 0 then tl else tr)
          else (bif b.val == 0 then bl else br) := by decide
  rw [quadrantCode, weights _ _ _ _ ⟨a, ha⟩ ⟨b, hb⟩]
  interval_cases a <;> interval_cases b <;> rfl

/-- A bit number below 4 names one of the two rows and one of the two columns of a cell. -/
theorem exists_cell_place {k : Nat} (hk : k < 4) : ∃ a b, a < 2 ∧ b < 2 ∧ k = 2 * a + b :=
  ⟨k / 2, k % 2, by omega, Nat.mod_lt _ (by omega), (Nat.div_add_mod k 2).symm⟩

/-- Two neighbouring pixels of a row byte, moved to its lowest bits. -/
theorem getLsbD_shift_and_three (r : Byte) (c k : Nat) :
    ((r >>> c) &&& 3#8).getLsbD k = (decide (k < 2) && r.getLsbD (c + k)) := by
  have three : ∀ k, (3#8).getLsbD k = decide (k < 2) := by
    intro k
    by_cases hk : k < 8
    · interval_cases k <;> rfl
    · rw [BitVec.getLsbD_of_ge _ _ (by omega), decide_eq_false (by omega)]
  rw [BitVec.getLsbD_and, BitVec.getLsbD_ushiftRight, three, Bool.and_comm]

/-- Settles O33: both sides have the cell's four pixels as their lowest bits, the lower row's two
moved above the upper row's, and no bit above these. -/
theorem quadrantCodeByShifts : Obligations.QuadrantCodeByShifts := by
  intro g cy _ cx _
  apply Nat.eq_of_testBit_eq
  intro k
  rw [BitVec.testBit_toNat, BitVec.getLsbD_or, BitVec.getLsbD_shiftLeft, getLsbD_shift_and_three,
    getLsbD_shift_and_three]
  by_cases hk : k < 4
  · obtain ⟨a, b, ha, hb, rfl⟩ := exists_cell_place hk
    rw [testBit_quadrantCode g cy cx ha hb, px]
    obtain rfl | rfl : a = 0 ∨ a = 1 := by omega
    · simp [hb]
    · simp [hb, show 2 + b < 8 by omega, show ¬2 + b ≤ 1 by omega]
  · have hlt : quadrantCode g cy cx < 2 ^ k :=
      (quadrantCode_lt g cy cx).trans_le
        (Nat.pow_le_pow_right (i := 4) Nat.zero_lt_two (Nat.le_of_not_lt hk))
    rw [Nat.testBit_lt_two_pow hlt]
    simp [show ¬k < 2 by omega, show ¬k - 2 < 2 by omega]

/-! The codes and the transforms. -/

theorem weighted_not_add (b : Bool) (w : Nat) : weighted (!b) w + weighted b w = w := by
  cases b
  · exact Nat.add_zero w
  · exact Nat.zero_add w

/-- Each of the four weights stands either in the code or in that of the inverse
(43_preview.md R96). -/
theorem quadrantCode_invertGlyph (g : Glyph) {cy cx : Nat} (hy : cy < 4) (hx : cx < 4) :
    quadrantCode (invertGlyph g) cy cx = 15 - quadrantCode g cy cx := by
  have htl := weighted_not_add (px g (2 * cy) (2 * cx)) 1
  have htr := weighted_not_add (px g (2 * cy) (2 * cx + 1)) 2
  have hbl := weighted_not_add (px g (2 * cy + 1) (2 * cx)) 4
  have hbr := weighted_not_add (px g (2 * cy + 1) (2 * cx + 1)) 8
  have hy0 : 2 * cy < 8 := by omega
  have hy1 : 2 * cy + 1 < 8 := by omega
  have hx0 : 2 * cx < 8 := by omega
  have hx1 : 2 * cx + 1 < 8 := by omega
  simp only [quadrantCode, px_invertGlyph g hy0 hx0, px_invertGlyph g hy0 hx1,
    px_invertGlyph g hy1 hx0, px_invertGlyph g hy1 hx1]
  omega

/-- The mirror image reads the cell in the mirrored place with its two columns exchanged
(43_preview.md R96). -/
theorem testBit_quadrantCode_reverseGlyph (g : Glyph) {cy cx k : Nat} (hy : cy < 4) (hx : cx < 4)
    (hk : k < 4) : (quadrantCode (reverseGlyph g) cy cx).testBit k
      = (quadrantCode g cy (3 - cx)).testBit (k ^^^ 1) := by
  obtain ⟨a, b, ha, hb, rfl⟩ := exists_cell_place hk
  have hxor : (2 * a + b) ^^^ 1 = 2 * a + (1 - b) := by
    interval_cases a <;> interval_cases b <;> rfl
  have hcol : 7 - (2 * cx + b) = 2 * (3 - cx) + (1 - b) := by omega
  rw [hxor, testBit_quadrantCode _ _ _ ha hb, testBit_quadrantCode _ _ _ ha (by omega),
    px_reverseGlyph g (by omega) (by omega), hcol]

/-- Settles O34: weights complement each other, and mirroring moves pixels between cells. -/
theorem codesOfInverseAndMirror : Obligations.CodesOfInverseAndMirror :=
  fun g _ hy _ hx => ⟨quadrantCode_invertGlyph g hy hx,
    fun _ hk => testBit_quadrantCode_reverseGlyph g hy hx hk⟩

/-! PRV. -/

/-- Code number `4cy + cx` of `PV` is the quadrant code of cell (`cy`, `cx`) (43_preview.md R93). -/
theorem nibble_previewCodes (g : Glyph) {cy cx : Nat} (hy : cy < 4) (hx : cx < 4) :
    nibble (previewCodes g) (4 * cy + cx) = BitVec.ofNat 4 (quadrantCode g cy cx) := by
  have hdiv : (4 * cy + cx) / Config.pvChars = cy := by simp only [Config.pvChars]; omega
  have hmod : (4 * cy + cx) % Config.pvChars = cx := by simp only [Config.pvChars]; omega
  rw [previewCodes, nibble_ofNibbles _ (by omega), hdiv, hmod]

theorem nibble_previewCodes_toNat (g : Glyph) {cy cx : Nat} (hy : cy < 4) (hx : cx < 4) :
    (nibble (previewCodes g) (4 * cy + cx)).toNat = quadrantCode g cy cx := by
  rw [nibble_previewCodes g hy hx, BitVec.toNat_ofNat, Nat.mod_eq_of_lt (quadrantCode_lt g cy cx)]

/-- Each bit of `PV` is the pixel of its cell and place (43_preview.md R93). -/
theorem getLsbD_previewCodes (g : Glyph) {cy cx a b : Nat} (hy : cy < 4) (hx : cx < 4) (ha : a < 2)
    (hb : b < 2) : (previewCodes g).getLsbD (4 * (4 * cy + cx) + 2 * a + b)
      = g.getLsbD (8 * (2 * cy + a) + 2 * cx + b) := by
  have hplace : 2 * a + b < 4 := by omega
  calc (previewCodes g).getLsbD (4 * (4 * cy + cx) + 2 * a + b)
      = (nibble (previewCodes g) (4 * cy + cx)).getLsbD (2 * a + b) := by
        rw [getLsbD_nibble, decide_eq_true hplace, Bool.true_and, Nat.add_assoc]
    _ = (quadrantCode g cy cx).testBit (2 * a + b) := by
        rw [← BitVec.testBit_toNat, nibble_previewCodes_toNat g hy hx]
    _ = px g (2 * cy + a) (2 * cx + b) := testBit_quadrantCode g cy cx ha hb
    _ = g.getLsbD (8 * (2 * cy + a) + 2 * cx + b) := by
        rw [px_eq_getLsbD g _ (by omega), Nat.add_assoc]

/-- Settles O32: the codes are the weighted sums, whose bits are the pixels. -/
theorem prvRendersTheCells : Obligations.PrvRendersTheCells := by
  intro s
  refine ⟨_, exec_prv s, fun cy hy cx hx => ?_,
    fun _ hy _ hx _ ha _ hb => getLsbD_previewCodes s.gr hy hx ha hb,
    rfl, rfl, fun _ => rfl, rfl, rfl, rfl, rfl⟩
  rw [done_pv, State.setPv_pv, nibble_previewCodes_toNat s.gr hy hx, quadrantCode]
  simp only [weighted_eq_mul_toNat, Nat.one_mul]

/-! The preview as characters. -/

/-- The character at position `p` of `PVSTR`: five positions a line, the fifth the newline
(43_preview.md R94). -/
def previewCharAt (pv : BitVec 64) (p : Nat) : CodePoint :=
  if p % 5 = 4 then newline else quadChar (nibble pv (4 * (p / 5) + p % 5))

theorem previewChars_eq_map (pv : BitVec 64) :
    previewChars pv = (List.range 19).map (previewCharAt pv) := rfl

theorem getElem?_previewChars (pv : BitVec 64) {p : Nat} (hp : p < 19) :
    (previewChars pv)[p]? = some (previewCharAt pv p) := by
  rw [previewChars_eq_map, List.getElem?_map, List.getElem?_range hp, Option.map_some]

theorem previewCharAt_cell (pv : BitVec 64) (cy : Nat) {cx : Nat} (hx : cx < 4) :
    previewCharAt pv (5 * cy + cx) = quadChar (nibble pv (4 * cy + cx)) := by
  have hdiv : (5 * cy + cx) / 5 = cy := by omega
  have hmod : (5 * cy + cx) % 5 = cx := by omega
  rw [previewCharAt, hdiv, hmod, if_neg (by omega)]

theorem previewCharAt_newline (pv : BitVec 64) (cy : Nat) :
    previewCharAt pv (5 * cy + 4) = newline := if_pos (by omega)

theorem getElem?_previewChars_cell (pv : BitVec 64) {cy cx : Nat} (hy : cy < 4) (hx : cx < 4) :
    (previewChars pv)[5 * cy + cx]? = some (quadChar (nibble pv (4 * cy + cx))) := by
  rw [getElem?_previewChars pv (by omega), previewCharAt_cell pv cy hx]

/-- Settles O35: a position holds a cell or, at the end of a line but the last, the newline. -/
theorem previewTextLayout : Obligations.PreviewTextLayout := by
  intro pv
  refine ⟨?_, fun _ hy _ hx => getElem?_previewChars_cell pv hy hx, fun cy hy => ?_⟩
  · rw [previewChars_eq_map, List.length_map, List.length_range]
  · rw [getElem?_previewChars pv (by omega), previewCharAt_newline, newline]

/-- After PRV every cell shows the table's character of its quadrant code (43_preview.md R94). -/
theorem exec_prv_shows (s : State) {cy cx : Nat} (hy : cy < 4) (hx : cx < 4) :
    ∃ t, exec .prv s = .next t ∧ (portPvch t)[5 * cy + cx]?
      = some (quadChar (BitVec.ofNat 4 (quadrantCode s.gr cy cx))) := by
  refine ⟨_, exec_prv s, ?_⟩
  rw [portPvch, done_pv, State.setPv_pv, getElem?_previewChars_cell _ hy hx,
    nibble_previewCodes s.gr hy hx]

/-- Every cell of the full glyph has code 15: it is the inverse of the blank one. -/
theorem quadrantCode_full {cy cx : Nat} (hy : cy < 4) (hx : cx < 4) :
    quadrantCode 0xFFFFFFFFFFFFFFFF#64 cy cx = 15 := by
  have hfull : 0xFFFFFFFFFFFFFFFF#64 = invertGlyph 0#64 := (invertGlyph_eq_not 0#64).symm
  rw [hfull, quadrantCode_invertGlyph _ hy hx, quadrantCode_zero]

/-- Settles O36: the codes are 0 and 15, the table's space and full block. -/
theorem previewOfBlankAndFull : Obligations.PreviewOfBlankAndFull := by
  intro s cy cx hy hx
  obtain ⟨t, hexec, hshow⟩ := exec_prv_shows s hy hx
  refine ⟨fun hblank => ⟨t, hexec, ?_⟩, fun hfull => ⟨t, hexec, ?_⟩⟩
  · rw [hshow, hblank, quadrantCode_zero]; rfl
  · rw [hshow, hfull, quadrantCode_full hy hx]; rfl

/-- No two codes share a character (43_preview.md R92). -/
theorem quadChar_injective : ∀ c d : Nibble, quadChar c = quadChar d → c = d := by decide

/-- Settles O37: a finite table, read off entry by entry. -/
theorem quadrantTableIsSound : Obligations.QuadrantTableIsSound :=
  ⟨rfl, quadChar_injective, by decide⟩

end Sys2Proof.Machine
end

section
/-! IMPORT on the unit and IMPORTIMAGE around it (44_import.md). -/

namespace Sys2Proof.Machine

/-! The coordinates of a glyph's pixels, taken apart into their index fields and put together again
(44_import.md R104, R110). -/

theorem pixelX_lt (n : Nat) {c : Nat} (hc : c < 8) : pixelX n c < Config.imgW := by
  simp only [pixelX, Config.nCol, Config.cellCols, Config.imgW]; omega

theorem pixelY_lt {n r : Nat} (hn : n < Config.nGlyph) (hr : r < 8) : pixelY n r < Config.imgH := by
  simp only [pixelY, Config.nGlyph, Config.nRow, Config.cellCols, Config.imgH] at *; omega

theorem pixelX_div (n : Nat) {c : Nat} (hc : c < 8) : pixelX n c / 8 = n % 32 := by
  simp only [pixelX, Config.nCol, Config.cellCols]; omega

theorem pixelX_mod (n : Nat) {c : Nat} (hc : c < 8) : pixelX n c % 8 = c := by
  simp only [pixelX, Config.nCol, Config.cellCols]; omega

theorem pixelY_div (n : Nat) {r : Nat} (hr : r < 8) : pixelY n r / 8 = n / 32 := by
  simp only [pixelY, Config.nRow, Config.cellCols]; omega

theorem pixelY_mod (n : Nat) {r : Nat} (hr : r < 8) : pixelY n r % 8 = r := by
  simp only [pixelY, Config.nRow, Config.cellCols]; omega

/-- The number of the glyph whose cell shows the image pixel (`x`, `y`) (44_import.md R104). -/
def cellOf (x y : Nat) : Nat := 32 * (y / 8) + x / 8

theorem cellOf_lt {x y : Nat} (hx : x < Config.imgW) (hy : y < Config.imgH) :
    cellOf x y < Config.nGlyph := by
  simp only [cellOf, Config.imgW, Config.imgH, Config.nGlyph] at *; omega

theorem pixelX_cellOf {x : Nat} (hx : x < Config.imgW) (y : Nat) :
    pixelX (cellOf x y) (x % 8) = x := by
  simp only [pixelX, cellOf, Config.nCol, Config.cellCols, Config.imgW] at *; omega

theorem pixelY_cellOf {x : Nat} (hx : x < Config.imgW) (y : Nat) :
    pixelY (cellOf x y) (y % 8) = y := by
  simp only [pixelY, cellOf, Config.nRow, Config.cellCols, Config.imgW] at *; omega

/-! The pixel test and the store made of it. -/

theorem black_eq_decide (p : Pixel) : black p = decide (p.r = 0 ∧ p.g = 0 ∧ p.b = 0) := by
  rw [Bool.eq_iff_iff]
  simp [black, and_assoc]

/-- Every image pixel is tested into its own place (44_import.md R104, R105). -/
theorem px_readGlyph_importStore (img : Image) {x y : Nat} (hx : x < Config.imgW)
    (hy : y < Config.imgH) :
    px (readGlyph (importStore img) (cellOf x y)) (y % 8) (x % 8) = black (pixRead img x y) := by
  rw [readGlyph_importStore img (cellOf_lt hx hy),
    px_importGlyph img _ (Nat.mod_lt y (by omega)) (Nat.mod_lt x (by omega)),
    pixelX_cellOf hx, pixelY_cellOf hx]

theorem importGlyph_congr {img img' : Image} {n : Nat} (hn : n < Config.nGlyph)
    (h : ∀ x < Config.imgW, ∀ y < Config.imgH,
      black (pixRead img x y) = black (pixRead img' x y)) :
    importGlyph img n = importGlyph img' n := by
  apply glyph_ext_pixels
  intro r hr c hc
  rw [px_importGlyph img n hr hc, px_importGlyph img' n hr hc,
    h _ (pixelX_lt n hc) _ (pixelY_lt hn hr)]

/-- Images with the same black pixels import to the same store, which its canonical form makes the
same data (44_import.md R108). -/
theorem importStore_congr {img img' : Image}
    (h : ∀ x < Config.imgW, ∀ y < Config.imgH,
      black (pixRead img x y) = black (pixRead img' x y)) :
    importStore img = importStore img' := by
  refine (equalGlyphsAreEqualStores _ _ (importStore_wf img) (importStore_wf img')).mp fun n hn => ?_
  rw [readGlyph_importStore img hn, readGlyph_importStore img' hn, importGlyph_congr hn h]

/-! The command. -/

/-- What a command that replaces the store leaves behind: code 0, and every other element as it
was (44_import.md R107). -/
theorem done_setRs_frame (s : State) (m : Memory) :
    (done (s.setRs m)).err = 0#4 ∧ (done (s.setRs m)).gr = s.gr ∧ (done (s.setRs m)).bg = s.bg ∧
      (done (s.setRs m)).pv = s.pv ∧ (done (s.setRs m)).image = s.image ∧
      (done (s.setRs m)).host = s.host :=
  ⟨rfl, rfl, rfl, rfl, rfl, rfl⟩

theorem exec_import_256_64 (s : State) :
    exec (.importFont .decoded 256#16 64#16) s = .next (done (s.setRs (importStore s.image))) :=
  exec_import_decoded ((rightSize_iff _ _).mpr ⟨rfl, rfl⟩) s

theorem rightSize_eq_false {w h : BitVec 16} (hsize : w ≠ 256#16 ∨ h ≠ 64#16) :
    rightSize w h = false := by
  rw [Bool.eq_false_iff, Ne, rightSize_iff, not_and_or]
  exact hsize

theorem issue_import {din : Operand} {src : ImageStatus} (h : sourceOf (fieldSrc din) = some src)
    (s : State) :
    issue 0x90000000#32 din s = exec (.importFont src (fieldW din) (fieldH din)) s := by
  have hword : 0x90000000#32 = formatC 0x9#4 0#3 0#3 0#16 := by decide
  rw [hword, issue_ok (decode_import h)]

/-- Settles O38: the new store has the pixel test of every pixel at its place, and nothing beyond its
2048 bytes. -/
theorem importRasterizesTheImage : Obligations.ImportRasterizesTheImage := by
  intro s
  refine ⟨_, exec_import_256_64 s, fun x hx y hy => ?_, fun a ha => ?_,
    done_setRs_frame s _⟩
  · rw [done_rs, State.setRs_rs, ← black_eq_decide]
    exact px_readGlyph_importStore s.image hx hy
  · rw [done_rs, State.setRs_rs]
    exact readByte_outside (importStore_wf s.image) ha

/-- Settles O39: the word decodes for each of the three sources, and the size is read for `SRC = 0`
alone. -/
theorem importChecksInOrder : Obligations.ImportChecksInOrder := by
  intro din s
  refine ⟨fun hsrc => ?_, fun hsrc => ?_, fun hsrc hsize => ?_, fun hsrc hw hh => ?_⟩
  · rw [issue_import (src := .notFound) (by rw [hsrc]; rfl), exec_import_notFound]; rfl
  · rw [issue_import (src := .undecodable) (by rw [hsrc]; rfl), exec_import_undecodable]; rfl
  · rw [issue_import (src := .decoded) (by rw [hsrc]; rfl),
      exec_import_wrong_size (rightSize_eq_false hsize)]; rfl
  · rw [issue_import (src := .decoded) (by rw [hsrc]; rfl), hw, hh]

/-- Settles O40: both stores are the store of their image, and the images have the same black
pixels. -/
theorem importDependsOnBlackPixelsOnly : Obligations.ImportDependsOnBlackPixelsOnly := by
  intro s u hblack
  refine ⟨_, _, exec_import_256_64 s, exec_import_256_64 u, ?_⟩
  rw [done_rs, State.setRs_rs, done_rs, State.setRs_rs, importStore_congr hblack]

/-! The ports of the pixel address. -/

/-- The column fits the 8 bits of `PX_X` (44_import.md R110). -/
theorem toNat_portPxX (n : Nat) {c : Nat} (hc : c < 8) : (portPxX n c).toNat = pixelX n c := by
  rw [portPxX, BitVec.toNat_ofNat]
  exact Nat.mod_eq_of_lt (pixelX_lt n hc)

/-- The line fits the 6 bits of `PX_Y` (44_import.md R110). -/
theorem toNat_portPxY {n r : Nat} (hn : n < Config.nGlyph) (hr : r < 8) :
    (portPxY n r).toNat = pixelY n r := by
  rw [portPxY, BitVec.toNat_ofNat]
  exact Nat.mod_eq_of_lt (pixelY_lt hn hr)

/-- The low three bits of an address count inside the cell. -/
theorem toNat_extractLsb'_low {w : Nat} (v : BitVec w) :
    (v.extractLsb' 0 3).toNat = v.toNat % 8 := by
  rw [BitVec.extractLsb'_toNat, Nat.shiftRight_zero]

/-- The bits above them count the cells. -/
theorem toNat_extractLsb'_high {k : Nat} (v : BitVec (k + 3)) :
    (v.extractLsb' 3 k).toNat = v.toNat / 8 := by
  have hbound : v.toNat / 8 < 2 ^ k := by
    rw [Nat.div_lt_iff_lt_mul (by omega)]
    exact v.isLt.trans_eq (Nat.pow_add 2 k 3)
  rw [BitVec.extractLsb'_toNat, Nat.shiftRight_eq_div_pow]
  exact Nat.mod_eq_of_lt hbound

/-- Settles O42: the addresses fit their ports, so the ports' bit fields are the quotients and
remainders of the coordinates by 8. -/
theorem pixelAddressesFitThePorts : Obligations.PixelAddressesFitThePorts := by
  intro n hn r hr c hc
  have hcell : ((portPxY n r).extractLsb' 3 3 ++ (portPxX n c).extractLsb' 3 5).toNat = n := by
    rw [BitVec.toNat_append, ← Nat.shiftLeft_add_eq_or_of_lt (BitVec.isLt _),
      toNat_extractLsb'_high, toNat_extractLsb'_high, toNat_portPxX n hc, toNat_portPxY hn hr,
      pixelX_div n hc, pixelY_div n hr, Nat.shiftLeft_eq, Nat.mul_comm]
    exact Nat.div_add_mod n 32
  refine ⟨toNat_portPxX n hc, toNat_portPxY hn hr, hcell, ?_, ?_⟩
  · rw [toNat_extractLsb'_low, toNat_portPxX n hc, pixelX_mod n hc]
  · rw [toNat_extractLsb'_low, toNat_portPxY hn hr, pixelY_mod n hr]

/-! IMPORTIMAGE. -/

/-- A size too large for the descriptor is shown as the largest that fits (44_import.md R110). -/
theorem toNat_describeSize (n : Nat) : (describeSize n).toNat = min n 65535 := by
  rw [describeSize]
  split
  · next hfits => rw [BitVec.toNat_ofNat, Nat.mod_eq_of_lt (by omega), Nat.min_eq_left hfits]
  · next hlarge => exact (Nat.min_eq_right (by omega)).symm

/-- The description loses nothing about a size below the largest. -/
theorem describeSize_ne {n k : Nat} (hk : k < 65535) (h : n ≠ k) :
    describeSize n ≠ BitVec.ofNat 16 k := by
  intro heq
  have hval := congrArg BitVec.toNat heq
  rw [toNat_describeSize, BitVec.toNat_ofNat, Nat.mod_eq_of_lt (by omega)] at hval
  omega

/-- IMPORTIMAGE answers the state and the code its IMPORT ends with (44_import.md R111). -/
theorem importImageProcedure_of_exec {f : ImageFile} {s t : State}
    (h : exec (importCommand f) (presentFile f s) = .next t) :
    importImageProcedure f s = .next (t, t.err) := by
  rw [importImageProcedure, h, andThen_next, portErr]

/-- An image of any other size is refused, also one too large to describe (log entry 12). -/
theorem exec_importCommand_wrong_size {w h : Nat} (hsize : w ≠ 256 ∨ h ≠ 64) (img : Image)
    (s : State) : exec (importCommand (.decoded w h img)) s = .next (raise .imageSizeError s) :=
  exec_import_wrong_size (rightSize_eq_false
    (hsize.imp (describeSize_ne (by omega)) (describeSize_ne (by omega)))) s

/-- Settles O59: by the four outcomes of the IMPORT that IMPORTIMAGE issues. -/
theorem importImageReturnsTheCode : Obligations.ImportImageReturnsTheCode := by
  intro w h img s
  obtain ⟨-, hgr, hbg, hpv, -, -⟩ := done_setRs_frame (s.setImage img) (importStore img)
  refine ⟨importImageProcedure_of_exec (exec_import_notFound _ _ s),
    importImageProcedure_of_exec (exec_import_undecodable _ _ s),
    fun hsize => importImageProcedure_of_exec (exec_importCommand_wrong_size hsize img _),
    _, importImageProcedure_of_exec (f := .decoded 256 64 img)
      (exec_import_256_64 (s.setImage img)), fun n hn => ?_,
    hgr, hbg, hpv⟩
  rw [done_rs, State.setRs_rs, State.setImage_image, readGlyph_importStore img hn]

end Sys2Proof.Machine
end

section
/-! The file gateway: LOAD and SAVE, from what DECODE and ENCODE do (45_file_gateway.md). -/

namespace Sys2Proof.Machine

/-! Clearing the store (45_file_gateway.md R113). -/

/-- Past its end a buffer reads as zero, so the empty buffer holds blank glyphs only. -/
@[simp] theorem glyphAt_nil (i : Nat) : glyphAt [] i = 0#64 := by
  apply glyph_ext_rows
  intro r hr
  rw [row_glyphAt _ _ hr, List.getD_nil, row, BitVec.extractLsb'_zero]

/-- Clearing an entry is storing the blank glyph there: the two pairs of commands are the same. -/
theorem runPseudo_clear (idx : Int) (s : State) :
    runPseudo (.clear idx) s = runPseudo (.setat 0#64 idx) s := rfl

/-- The clearing loop is the loop of DECODE over blank glyphs. -/
theorem clearFrom_eq_decodeFrom_nil (l : List Nat) (s : State) :
    clearFrom l s = decodeFrom [] l s := by
  induction l generalizing s with
  | nil => rfl
  | cons i l ih => rw [clearFrom, decodeFrom, runPseudo_clear, glyphAt_nil, funext ih]

/-- Right after reset there is nothing to do. -/
theorem makeBlank_fresh (s : State) : makeBlank true s = .next s := if_pos rfl

/-- Otherwise every entry is cleared, and the blank glyph stays in `GR`. -/
theorem makeBlank_used (s : State) :
    makeBlank false s = .next (done ((s.setGr 0#64).setRs
      (storeGlyphsOf [] (List.range Config.nGlyph) s.rs))) := by
  rw [makeBlank, if_neg Bool.false_ne_true, clearFrom_eq_decodeFrom_nil, range_nGlyph,
    decodeFrom_append_singleton [] (fun _ => lt_nGlyph_of_mem_append), glyphAt_nil]

/-- A cleared entry holds the blank glyph, whatever the store held. -/
theorem readGlyph_clearedStore (m : Memory) {i : Nat} (hi : i < Config.nGlyph) :
    readGlyph (storeGlyphsOf [] (List.range Config.nGlyph) m) i = 0#64 := by
  rw [readGlyph_storeGlyphsOf, if_pos (List.mem_range.mpr hi), glyphAt_nil]

/-! LOAD and SAVE pass on what the procedure inside them answers. -/

theorem loadProcedure_absent {fresh : Bool} {s t : State} (h : makeBlank fresh s = .next t) :
    loadProcedure fresh .absent s = .next (t, ⟨false, successCode⟩) := by
  rw [loadProcedure, h, andThen_next]

theorem loadProcedure_unreadable (fresh : Bool) (s : State) :
    loadProcedure fresh .unreadable s = .next (s, ⟨true, 3#4⟩) := rfl

theorem loadProcedure_readable {b : List Byte} {s t : State} {c : ErrCode}
    (h : decodeProcedure b s = .next (t, c)) (fresh : Bool) :
    loadProcedure fresh (.readable b) s = .next (t, ⟨true, c⟩) := by
  rw [loadProcedure, h, andThen_next]

theorem saveProcedure_written {s t : State} {b : List Byte}
    (h : encodeProcedure s = .next (t, b)) :
    saveProcedure none s = .next (t, .written b) := by
  rw [saveProcedure, h, andThen_next]

theorem saveProcedure_failed {s t : State} {b : List Byte}
    (h : encodeProcedure s = .next (t, b)) (e : Nat) :
    saveProcedure (some e) s = .next (t, .failed e) := by
  rw [saveProcedure, h, andThen_next]

/-- Settles O57: an absent path by the clearing loop, a readable one by the two outcomes of
DECODE. -/
theorem loadOutcomes : Obligations.LoadOutcomes := by
  intro fresh b s
  refine ⟨?fresh, ?used, loadProcedure_unreadable fresh s, ?wrongLength, ?rightLength⟩
  case fresh =>
    rintro rfl hblank
    exact ⟨s, loadProcedure_absent (makeBlank_fresh s), rfl, hblank⟩
  case used =>
    rintro rfl
    obtain ⟨-, -, hbg, hpv, -⟩ := done_setRs_frame (s.setGr 0#64)
      (storeGlyphsOf [] (List.range Config.nGlyph) s.rs)
    refine ⟨_, loadProcedure_absent (makeBlank_used s), fun i hi => ?_, hbg, hpv⟩
    rw [done_rs, State.setRs_rs, readGlyph_clearedStore s.rs hi]
  case wrongLength =>
    intro hb
    obtain ⟨-, hdecode⟩ := decodeGuardsTheLength b s hb
    exact loadProcedure_readable hdecode fresh
  case rightLength =>
    intro hb
    obtain ⟨t, hdecode, hbytes, -⟩ := decodeProcedureReplacesTheStore b s hb
    exact ⟨t, loadProcedure_readable hdecode fresh, hbytes⟩

/-- Settles O58: the write comes after ENCODE, which returns the layout and keeps the store. -/
theorem saveKeepsTheStore : Obligations.SaveKeepsTheStore := by
  intro e s
  obtain ⟨t, hencode, hrs, -⟩ := encodeProcedureReturnsTheLayout s
  exact ⟨t, saveProcedure_written hencode, saveProcedure_failed hencode e, hrs⟩

end Sys2Proof.Machine
end

section
/-! The unit's one exception and the steps around it: which pairs report `IllegalCommand`, what a
failed command leaves behind, and that no step stops (60_exceptions.md R121, R126, R129 to R131). -/

namespace Sys2Proof.Machine

/-! Words that are no command (60_exceptions.md R126). -/

@[simp] theorem sourceOf_reserved : sourceOf 3#2 = none := rfl

/-- A word can match the row of IMPORT and still be no command, by its descriptor alone
(30_encoding.md R51). -/
theorem decode_import_reserved {din : Operand} (h : fieldSrc din = 3#2) :
    decode (formatC 0x9#4 0#3 0#3 0#16) din = .error .reservedSource := by
  simp [decode, decodeOp, h]

/-- Settles O7: the decoder rejects a word that matches no row, and rejects the reserved descriptor
by its own check. -/
theorem noCommandRaisesIllegalCommand : Obligations.NoCommandRaisesIllegalCommand := by
  rintro cmd din s (hmiss | ⟨rfl, hsrc⟩)
  · obtain ⟨e, he⟩ := decode_error_of_no_hits hmiss din
    exact issue_error he s
  · have hword : 0x90000000#32 = formatC 0x9#4 0#3 0#3 0#16 := by decide
    have hreserved := decode_import_reserved hsrc
    rw [← hword] at hreserved
    exact issue_error hreserved s

/-! Every step completes (60_exceptions.md R129, R131). -/

theorem react_completes (e : HostEvent) (s : State) : goesOn (react e s) := by
  cases e with
  | issue cmd din => exact issue_completes cmd din s
  | present img => exact ⟨_, react_present img s⟩
  | reset => exact ⟨_, react_reset s⟩
  | abandon cmd din => exact ⟨_, react_abandon cmd din s⟩

/-- Settles O14: a step waits or is the reaction to one event, and each reaction completes. -/
theorem everyStepGoesOn : Obligations.EveryStepGoesOn := by
  intro s
  cases hhost : s.host with
  | nil => exact ⟨s, step_of_host_nil hhost⟩
  | cons e rest =>
    rw [step_of_host_cons hhost]
    exact react_completes e (s.setHost rest)

/-- Settles O10: with nothing presented the step is the waiting one. -/
theorem idleUnitWaits : Obligations.IdleUnitWaits := fun _ => step_of_host_nil

/-! What a failed command leaves behind (60_exceptions.md R121, R130). -/

/-- A raised error writes `ST.ERR` and no other element (60_exceptions.md R121). -/
theorem raise_eq_update_err (k : ErrKind) (s : State) :
    raise k s = { s with err := (raise k s).err } := rfl

/-- The only way to a nonzero code is a raised error: every command that writes another element ends
in `done`. -/
theorem exec_failure {i : Instr} {s t : State} (h : exec i s = .next t) (herr : t.err ≠ 0#4) :
    ∃ k : ErrKind, t = raise k s := by
  obtain ⟨g, rfl⟩ | ⟨idx, -, -, rfl⟩ | ⟨w, e, -, -, rfl⟩ | ⟨-, rfl⟩ | ⟨-, rfl⟩ | ⟨k, -, rfl⟩ :=
    exec_cases h
  case inr.inr.inr.inr.inr => exact ⟨k, rfl⟩
  all_goals exact absurd (done_err _) herr

theorem issue_failure {cmd : CmdWord} {din : Operand} {s t : State}
    (h : issue cmd din s = .next t) (herr : t.err ≠ 0#4) : ∃ k : ErrKind, t = raise k s := by
  obtain ⟨i, -, hexec⟩ | ⟨e, -, ht⟩ := issue_cases h
  · exact exec_failure hexec herr
  · exact ⟨.illegalCommand, ht⟩

/-- Settles O15: a pair that fails has raised an error, which keeps the store at every address. -/
theorem failedCommandChangesOnlyErr : Obligations.FailedCommandChangesOnlyErr := by
  intro cmd din s t h herr
  obtain ⟨k, rfl⟩ := issue_failure h herr
  refine ⟨raise_eq_update_err k s, fun a => ?_⟩
  rw [raise_rs]

end Sys2Proof.Machine
end
